-- ==== Sys2Proof/Word.lean ====
section
/-! DEFINITION. The widths the spec gives its values (00_scope.md R5, R8, 30_encoding.md R93): all are unsigned. -/

namespace Sys2Proof

/-- A general register, a timer or a memory byte: 8 bits (10_state.md R20, R24, R25; 20_memory.md R60). -/
abbrev Byte := BitVec 8

/-- An opcode, the program counter, the index register or a stack slot: 16 bits (10_state.md R22, R23, R26). -/
abbrev Word := BitVec 16

/-- A 4-bit field of an opcode: a register number, a sprite height, a key number (30_encoding.md R93). -/
abbrev Nibble := BitVec 4

/-- A 12-bit address literal `nnn` (30_encoding.md R93). -/
abbrev Addr := BitVec 12

end Sys2Proof
end

