-- ==== Sys2Proof/Machine/Event.lean ====
section
/-! DEFINITION. The atomic events by which the agents act on the core (00_scope.md R6). -/

namespace Sys2Proof.Machine

/-- The five events of 00_scope.md R6. -/
inductive Event where
  /-- The interpreter executes one opcode (30_encoding.md R101). -/
  | cycle
  /-- One 60 Hz timer decay (60_exceptions.md R210). -/
  | tick
  /-- The host sets key `k` down (`true`) or up (`false`) (45_keypad.md R185). -/
  | keySet (k : Nibble) (b : Bool)
  /-- Device initialization (70_reset_and_hazards.md R230). -/
  | reset
  /-- The host's block copy into memory (20_memory.md R72). -/
  | load (start : Nat) (bytes : List Byte)
  deriving DecidableEq, Repr

end Sys2Proof.Machine
end

