-- ==== Sys2Proof/Syntax.lean ====
section
/-! DEFINITION. The 34 instructions, one constructor per row of the opcode table (30_encoding.md R98).
The spec's own names are the patterns; the constructors take the conventional assembler spelling (R100). -/

namespace Sys2Proof

/-- The instructions of 30_encoding.md R98. Operands are the fields of R93; every value of a field is legal (R96). -/
inductive Instr where
  /-- `00E0`: clear display (R170). -/
  | cls
  /-- `00EE`: return from subroutine (R120). -/
  | ret
  /-- `1nnn`: jump (R121). -/
  | jp (nnn : Addr)
  /-- `2nnn`: call (R122). -/
  | call (nnn : Addr)
  /-- `3xnn`: skip if `V[x] = nn` (R130). -/
  | seByte (x : Nibble) (nn : Byte)
  /-- `4xnn`: skip if `V[x] != nn` (R131). -/
  | sneByte (x : Nibble) (nn : Byte)
  /-- `5xy0`: skip if `V[x] = V[y]` (R132). -/
  | seReg (x y : Nibble)
  /-- `6xnn`: load byte (R140). -/
  | ldByte (x : Nibble) (nn : Byte)
  /-- `7xnn`: add byte, no flag (R141). -/
  | addByte (x : Nibble) (nn : Byte)
  /-- `8xy0`: copy register (R142). -/
  | ldReg (x y : Nibble)
  /-- `8xy1`: OR (R143). -/
  | orReg (x y : Nibble)
  /-- `8xy2`: AND (R144). -/
  | andReg (x y : Nibble)
  /-- `8xy3`: XOR (R145). -/
  | xorReg (x y : Nibble)
  /-- `8xy4`: add with carry flag (R146). -/
  | addReg (x y : Nibble)
  /-- `8xy5`: subtract (R147). -/
  | subReg (x y : Nibble)
  /-- `8xy6`: shift right by one (R148); `y` is carried by the encoding and ignored (R103). -/
  | shr (x y : Nibble)
  /-- `8xy7`: reverse subtract (R149). -/
  | subnReg (x y : Nibble)
  /-- `8xyE`: shift left by one (R150); `y` is carried by the encoding and ignored (R103). -/
  | shl (x y : Nibble)
  /-- `9xy0`: skip if `V[x] != V[y]` (R133). -/
  | sneReg (x y : Nibble)
  /-- `Annn`: load index (R160). -/
  | ldI (nnn : Addr)
  /-- `Bnnn`: jump to `nnn + V0` (R123). -/
  | jpV0 (nnn : Addr)
  /-- `Cxnn`: random byte under mask (R151). -/
  | rnd (x : Nibble) (nn : Byte)
  /-- `Dxyn`: draw sprite (R171). -/
  | drw (x y n : Nibble)
  /-- `Ex9E`: skip if key down (R180). -/
  | skp (x : Nibble)
  /-- `ExA1`: skip if key up (R181). -/
  | sknp (x : Nibble)
  /-- `Fx07`: read delay timer (R190). -/
  | ldVxDT (x : Nibble)
  /-- `Fx0A`: wait for a key (R182). -/
  | ldVxK (x : Nibble)
  /-- `Fx15`: set delay timer (R191). -/
  | ldDTVx (x : Nibble)
  /-- `Fx18`: set sound timer (R192). -/
  | ldSTVx (x : Nibble)
  /-- `Fx1E`: add register to index (R161). -/
  | addI (x : Nibble)
  /-- `Fx29`: point I at a font glyph (R162). -/
  | ldF (x : Nibble)
  /-- `Fx33`: store binary-coded decimal (R163). -/
  | ldB (x : Nibble)
  /-- `Fx55`: store registers V0 to Vx (R164). -/
  | ldMemVx (x : Nibble)
  /-- `Fx65`: load registers V0 to Vx (R165). -/
  | ldVxMem (x : Nibble)
  deriving DecidableEq, Repr

end Sys2Proof
end

