-- ==== Sys2Proof/WellFormed.lean ====
section
/-! DEFINITION. What is well formed: an instruction (always: its operand types are the fields' widths), a 16-bit word (when it
is in none of the undefined families of 30_encoding.md R97), a host event (when it meets the precondition of 20_memory.md R72). -/

namespace Sys2Proof

/-- Every value of every operand is legal (30_encoding.md R96, R103: no field has a reserved value), and an operand's type
holds exactly the values its field can spell, so an ill-formed instruction cannot be written. -/
def Instr.wellFormed (_ : Instr) : Bool := true

/-- `0nnn` with `nnn` not `0x0E0` or `0x0EE` (R97, 4094 words). -/
def undefined0 (op : Word) : Bool := op &&& 0xF000 == 0 && op != 0x00E0 && op != 0x00EE

/-- `5xyn` with `n != 0` (R97, 3840 words). -/
def undefined5 (op : Word) : Bool := op &&& 0xF000 == 0x5000 && op &&& 0x000F != 0

/-- `8xyn` with `n` in 8, 9, A, B, C, D, F (R97, 1792 words). -/
def undefined8 (op : Word) : Bool :=
  op &&& 0xF000 == 0x8000 && (0x0008 : Word) ≤ op &&& 0x000F && op &&& 0x000F != 0x000E

/-- `9xyn` with `n != 0` (R97, 3840 words). -/
def undefined9 (op : Word) : Bool := op &&& 0xF000 == 0x9000 && op &&& 0x000F != 0

/-- `Exnn` with `nn` not `9E` or `A1` (R97, 4064 words). -/
def undefinedE (op : Word) : Bool :=
  op &&& 0xF000 == 0xE000 && op &&& 0x00FF != 0x009E && op &&& 0x00FF != 0x00A1

/-- `Fxnn` with `nn` not one of the nine defined low bytes (R97, 3952 words). -/
def undefinedF (op : Word) : Bool :=
  op &&& 0xF000 == 0xF000 &&
    !(([0x07, 0x0A, 0x15, 0x18, 0x1E, 0x29, 0x33, 0x55, 0x65] : List Word).contains (op &&& 0x00FF))

/-- A word that is in none of the six undefined families of R97. -/
def wellFormedWord (op : Word) : Bool :=
  !(undefined0 op || undefined5 op || undefined8 op || undefined9 op || undefinedE op || undefinedF op)

/-- The precondition of `Load`, `0 <= start < 4096` (20_memory.md R72, a host duty); the other events have none (R185: a key
number outside 0..15 is not a possible argument). -/
def Machine.Event.wellFormed : Machine.Event → Bool
  | .load start _ => start < 4096
  | .cycle => true
  | .tick => true
  | .keySet _ _ => true
  | .reset => true

end Sys2Proof
end

