-- ==== Sys2Proof/Decode.lean ====
section
/-! DEFINITION. Fetch byte order, fields, decode, the opcode table and the encoder (20_memory.md R63; 30_encoding.md R91 to R98). -/

namespace Sys2Proof

/-- The opcode whose bytes are `hi` at the lower address and `lo` at the higher one: big-endian (20_memory.md R63). -/
def wordOfBytes (hi lo : Byte) : Word := hi ++ lo

/-- The byte of `op` that lies at the lower address (R63). -/
def highByte (op : Word) : Byte := op.extractLsb' 8 8

/-- The byte of `op` that lies at the higher address (R63). -/
def lowByte (op : Word) : Byte := op.extractLsb' 0 8

/-- `t = op[15:12]`, the family (R93). -/
def fieldT (op : Word) : Nibble := op.extractLsb' 12 4

/-- `x = op[11:8]` (R93). -/
def fieldX (op : Word) : Nibble := op.extractLsb' 8 4

/-- `y = op[7:4]` (R93). -/
def fieldY (op : Word) : Nibble := op.extractLsb' 4 4

/-- `n = op[3:0]` (R93). -/
def fieldN (op : Word) : Nibble := op.extractLsb' 0 4

/-- `nn = op[7:0]` (R93). -/
def fieldNN (op : Word) : Byte := op.extractLsb' 0 8

/-- `nnn = op[11:0]` (R93). -/
def fieldNNN (op : Word) : Addr := op.extractLsb' 0 12

/-- The 35 verdicts of decoding (R95): one of the 34 instructions, or the error UnknownOpcode with the offending word. -/
inductive Verdict where
  | instruction (i : Instr)
  | unknownOpcode (op : Word)
  deriving DecidableEq, Repr

/-- Family 0 (R95). -/
def decode0 (op : Word) : Verdict :=
  if op = 0x00E0 then .instruction .cls
  else if op = 0x00EE then .instruction .ret
  else .unknownOpcode op

/-- Family 8 (R95): the low nibble is the sub-opcode. -/
def decode8 (op : Word) : Verdict :=
  match (fieldN op).toNat with
  | 0x0 => .instruction (.ldReg (fieldX op) (fieldY op))
  | 0x1 => .instruction (.orReg (fieldX op) (fieldY op))
  | 0x2 => .instruction (.andReg (fieldX op) (fieldY op))
  | 0x3 => .instruction (.xorReg (fieldX op) (fieldY op))
  | 0x4 => .instruction (.addReg (fieldX op) (fieldY op))
  | 0x5 => .instruction (.subReg (fieldX op) (fieldY op))
  | 0x6 => .instruction (.shr (fieldX op) (fieldY op))
  | 0x7 => .instruction (.subnReg (fieldX op) (fieldY op))
  | 0xE => .instruction (.shl (fieldX op) (fieldY op))
  | _ => .unknownOpcode op

/-- Family E (R95): the low byte is the sub-opcode. -/
def decodeE (op : Word) : Verdict :=
  match (fieldNN op).toNat with
  | 0x9E => .instruction (.skp (fieldX op))
  | 0xA1 => .instruction (.sknp (fieldX op))
  | _ => .unknownOpcode op

/-- Family F (R95): the low byte is the sub-opcode. -/
def decodeF (op : Word) : Verdict :=
  match (fieldNN op).toNat with
  | 0x07 => .instruction (.ldVxDT (fieldX op))
  | 0x0A => .instruction (.ldVxK (fieldX op))
  | 0x15 => .instruction (.ldDTVx (fieldX op))
  | 0x18 => .instruction (.ldSTVx (fieldX op))
  | 0x1E => .instruction (.addI (fieldX op))
  | 0x29 => .instruction (.ldF (fieldX op))
  | 0x33 => .instruction (.ldB (fieldX op))
  | 0x55 => .instruction (.ldMemVx (fieldX op))
  | 0x65 => .instruction (.ldVxMem (fieldX op))
  | _ => .unknownOpcode op

/-- Decode (R95): total on the 65536 words. The last arm is family F. -/
def decode (op : Word) : Verdict :=
  match (fieldT op).toNat with
  | 0x0 => decode0 op
  | 0x1 => .instruction (.jp (fieldNNN op))
  | 0x2 => .instruction (.call (fieldNNN op))
  | 0x3 => .instruction (.seByte (fieldX op) (fieldNN op))
  | 0x4 => .instruction (.sneByte (fieldX op) (fieldNN op))
  | 0x5 => if fieldN op = 0 then .instruction (.seReg (fieldX op) (fieldY op)) else .unknownOpcode op
  | 0x6 => .instruction (.ldByte (fieldX op) (fieldNN op))
  | 0x7 => .instruction (.addByte (fieldX op) (fieldNN op))
  | 0x8 => decode8 op
  | 0x9 => if fieldN op = 0 then .instruction (.sneReg (fieldX op) (fieldY op)) else .unknownOpcode op
  | 0xA => .instruction (.ldI (fieldNNN op))
  | 0xB => .instruction (.jpV0 (fieldNNN op))
  | 0xC => .instruction (.rnd (fieldX op) (fieldNN op))
  | 0xD => .instruction (.drw (fieldX op) (fieldY op) (fieldN op))
  | 0xE => decodeE op
  | _ => decodeF op

/-- The decoder on the two bytes a fetch reads, the lower address first (R91). -/
def decodeBytes (hi lo : Byte) : Verdict := decode (wordOfBytes hi lo)

/-- The word of an instruction, field by field as the diagrams of R93 and R94 draw it, most significant digit first. -/
def encode : Instr → Word
  | .cls => 0x00E0
  | .ret => 0x00EE
  | .jp nnn => 0x1#4 ++ nnn
  | .call nnn => 0x2#4 ++ nnn
  | .seByte x nn => 0x3#4 ++ x ++ nn
  | .sneByte x nn => 0x4#4 ++ x ++ nn
  | .seReg x y => 0x5#4 ++ x ++ y ++ 0x0#4
  | .ldByte x nn => 0x6#4 ++ x ++ nn
  | .addByte x nn => 0x7#4 ++ x ++ nn
  | .ldReg x y => 0x8#4 ++ x ++ y ++ 0x0#4
  | .orReg x y => 0x8#4 ++ x ++ y ++ 0x1#4
  | .andReg x y => 0x8#4 ++ x ++ y ++ 0x2#4
  | .xorReg x y => 0x8#4 ++ x ++ y ++ 0x3#4
  | .addReg x y => 0x8#4 ++ x ++ y ++ 0x4#4
  | .subReg x y => 0x8#4 ++ x ++ y ++ 0x5#4
  | .shr x y => 0x8#4 ++ x ++ y ++ 0x6#4
  | .subnReg x y => 0x8#4 ++ x ++ y ++ 0x7#4
  | .shl x y => 0x8#4 ++ x ++ y ++ 0xE#4
  | .sneReg x y => 0x9#4 ++ x ++ y ++ 0x0#4
  | .ldI nnn => 0xA#4 ++ nnn
  | .jpV0 nnn => 0xB#4 ++ nnn
  | .rnd x nn => 0xC#4 ++ x ++ nn
  | .drw x y n => 0xD#4 ++ x ++ y ++ n
  | .skp x => 0xE#4 ++ x ++ 0x9E#8
  | .sknp x => 0xE#4 ++ x ++ 0xA1#8
  | .ldVxDT x => 0xF#4 ++ x ++ 0x07#8
  | .ldVxK x => 0xF#4 ++ x ++ 0x0A#8
  | .ldDTVx x => 0xF#4 ++ x ++ 0x15#8
  | .ldSTVx x => 0xF#4 ++ x ++ 0x18#8
  | .addI x => 0xF#4 ++ x ++ 0x1E#8
  | .ldF x => 0xF#4 ++ x ++ 0x29#8
  | .ldB x => 0xF#4 ++ x ++ 0x33#8
  | .ldMemVx x => 0xF#4 ++ x ++ 0x55#8
  | .ldVxMem x => 0xF#4 ++ x ++ 0x65#8

/-- One row of the opcode map: an opcode selects it when `op & mask = match` (R98). -/
structure OpcodeRow where
  pattern : String
  mask : Word
  value : Word
  deriving DecidableEq, Repr

/-- The row of R98 an instruction belongs to. -/
def Instr.row : Instr → OpcodeRow
  | .cls => ⟨"00E0", 0xFFFF, 0x00E0⟩
  | .ret => ⟨"00EE", 0xFFFF, 0x00EE⟩
  | .jp _ => ⟨"1nnn", 0xF000, 0x1000⟩
  | .call _ => ⟨"2nnn", 0xF000, 0x2000⟩
  | .seByte _ _ => ⟨"3xnn", 0xF000, 0x3000⟩
  | .sneByte _ _ => ⟨"4xnn", 0xF000, 0x4000⟩
  | .seReg _ _ => ⟨"5xy0", 0xF00F, 0x5000⟩
  | .ldByte _ _ => ⟨"6xnn", 0xF000, 0x6000⟩
  | .addByte _ _ => ⟨"7xnn", 0xF000, 0x7000⟩
  | .ldReg _ _ => ⟨"8xy0", 0xF00F, 0x8000⟩
  | .orReg _ _ => ⟨"8xy1", 0xF00F, 0x8001⟩
  | .andReg _ _ => ⟨"8xy2", 0xF00F, 0x8002⟩
  | .xorReg _ _ => ⟨"8xy3", 0xF00F, 0x8003⟩
  | .addReg _ _ => ⟨"8xy4", 0xF00F, 0x8004⟩
  | .subReg _ _ => ⟨"8xy5", 0xF00F, 0x8005⟩
  | .shr _ _ => ⟨"8xy6", 0xF00F, 0x8006⟩
  | .subnReg _ _ => ⟨"8xy7", 0xF00F, 0x8007⟩
  | .shl _ _ => ⟨"8xyE", 0xF00F, 0x800E⟩
  | .sneReg _ _ => ⟨"9xy0", 0xF00F, 0x9000⟩
  | .ldI _ => ⟨"Annn", 0xF000, 0xA000⟩
  | .jpV0 _ => ⟨"Bnnn", 0xF000, 0xB000⟩
  | .rnd _ _ => ⟨"Cxnn", 0xF000, 0xC000⟩
  | .drw _ _ _ => ⟨"Dxyn", 0xF000, 0xD000⟩
  | .skp _ => ⟨"Ex9E", 0xF0FF, 0xE09E⟩
  | .sknp _ => ⟨"ExA1", 0xF0FF, 0xE0A1⟩
  | .ldVxDT _ => ⟨"Fx07", 0xF0FF, 0xF007⟩
  | .ldVxK _ => ⟨"Fx0A", 0xF0FF, 0xF00A⟩
  | .ldDTVx _ => ⟨"Fx15", 0xF0FF, 0xF015⟩
  | .ldSTVx _ => ⟨"Fx18", 0xF0FF, 0xF018⟩
  | .addI _ => ⟨"Fx1E", 0xF0FF, 0xF01E⟩
  | .ldF _ => ⟨"Fx29", 0xF0FF, 0xF029⟩
  | .ldB _ => ⟨"Fx33", 0xF0FF, 0xF033⟩
  | .ldMemVx _ => ⟨"Fx55", 0xF0FF, 0xF055⟩
  | .ldVxMem _ => ⟨"Fx65", 0xF0FF, 0xF065⟩

/-- The 34 rows of R98, in its order. -/
def opcodeTable : List OpcodeRow :=
  [Instr.row .cls, Instr.row .ret, Instr.row (.jp 0), Instr.row (.call 0), Instr.row (.seByte 0 0),
    Instr.row (.sneByte 0 0), Instr.row (.seReg 0 0), Instr.row (.ldByte 0 0), Instr.row (.addByte 0 0)]
  ++ [Instr.row (.ldReg 0 0), Instr.row (.orReg 0 0), Instr.row (.andReg 0 0), Instr.row (.xorReg 0 0),
    Instr.row (.addReg 0 0), Instr.row (.subReg 0 0), Instr.row (.shr 0 0), Instr.row (.subnReg 0 0), Instr.row (.shl 0 0)]
  ++ [Instr.row (.sneReg 0 0), Instr.row (.ldI 0), Instr.row (.jpV0 0), Instr.row (.rnd 0 0), Instr.row (.drw 0 0 0),
    Instr.row (.skp 0), Instr.row (.sknp 0)]
  ++ [Instr.row (.ldVxDT 0), Instr.row (.ldVxK 0), Instr.row (.ldDTVx 0), Instr.row (.ldSTVx 0), Instr.row (.addI 0),
    Instr.row (.ldF 0), Instr.row (.ldB 0), Instr.row (.ldMemVx 0), Instr.row (.ldVxMem 0)]

/-- Whether an opcode selects a row: `op & mask = match` (R98). -/
def OpcodeRow.selects (r : OpcodeRow) (op : Word) : Bool := op &&& r.mask == r.value

/-- The instruction word whose low `nbits` bits are those of `w`, the bits above them 0 (an instruction is 16 bits, R90). -/
def tableWord (nbits w : Nat) : Word := BitVec.ofNat 16 (w % 2 ^ nbits)

/-- What the decoder reads from the bytes of the table word `w`, laid out big-endian as a fetch reads them (R63). -/
def decodeTableWord (nbits w : Nat) : Option Instr :=
  match decodeBytes (highByte (tableWord nbits w)) (lowByte (tableWord nbits w)) with
  | .instruction i => some i
  | .unknownOpcode _ => none

end Sys2Proof
end

