-- ==== Sys2Proof/Config.lean ====
section
/-! DEFINITION. What an implementation fixes (00_scope.md R5, the rows marked "parameter") and the one free value (10_state.md R33).
The values this hardware gives the parameters stand in Machine/Params.lean. -/

namespace Sys2Proof

/-- `VF_WRITE_ORDER` (R5, D5; 42_alu.md R152): what `8xy6` and `8xyE` leave in VF when `x = 15`. -/
inductive VfWriteOrder where
  /-- The result is written first and the flag last (the default). -/
  | flagLast
  /-- The two assignments in the order the source's rows list them: flag, then the shift of what `V[x]` then holds. -/
  | literalRows
  deriving DecidableEq, Repr

/-- `LOGIC_WRITES_VF` (R5, D6; 42_alu.md R143). -/
inductive LogicWritesVf where
  /-- VF is untouched (the default). -/
  | no
  /-- `V[15] <- 0` is written last. -/
  | clearTo0
  deriving DecidableEq, Repr

/-- `FX1E_WRITES_VF` (R5, D7; 43_index_memory.md R161). -/
inductive Fx1eWritesVf where
  /-- VF is untouched (the default). -/
  | no
  /-- `V[15] <- (1 if I + V[x] > 0xFFF else 0)`. -/
  | overflow
  deriving DecidableEq, Repr

/-- `LOADSTORE_INC_I` (R5, D8; 43_index_memory.md R164). -/
inductive LoadStoreIncI where
  /-- I is unchanged (the default). -/
  | no
  /-- `I <- (I + x + 1) mod 4096`. -/
  | xPlus1
  deriving DecidableEq, Repr

/-- The four parameters on which CHIP-8 dialects disagree and the spec leaves an argument (00_scope.md R5). -/
structure Dialect where
  vfWriteOrder : VfWriteOrder
  logicWritesVf : LogicWritesVf
  fx1eWritesVf : Fx1eWritesVf
  loadStoreIncI : LoadStoreIncI
  deriving DecidableEq, Repr

/-- RND (10_state.md R33, D12): the random byte of the `k`-th execution of `Cxnn`. FREE VALUE: it has no body, so nothing can
be proved of it, and different `k` are unrelated. DESIGN CHOICE (log 2): the counter `k` stands in State. Safe. -/
opaque Config.rnd : Nat → Byte

end Sys2Proof
end

