-- ==== Sys2Proof/Machine/Params.lean ====
section
/-! DEFINITION. The parameter values of this hardware (00_scope.md R5): sizes, the default dialect, the font, and with them what
a byte of memory reads as until something writes it (10_state.md R35). -/

namespace Sys2Proof.Machine

/-- `MEM_SIZE` (R5, 20_memory.md R60). -/
def memSize : Nat := 4096

/-- `PROG_BASE` and `RESET_PC` (R5). -/
def progBase : Nat := 0x200

/-- `FONT_BASE` (R5). -/
def fontBase : Nat := 0x050

/-- `GLYPH_BYTES` (R5). -/
def glyphBytes : Nat := 5

/-- `MAX_ROM`, `4096 - 0x200` (R5). -/
def maxRom : Nat := memSize - progBase

/-- The values R5 gives the four dialect parameters. DESIGN CHOICE (the spec's D5 to D8; log 4). Unsafe: a program that
depends on another dialect's value sees other results. -/
def dialect : Dialect where
  vfWriteOrder := .flagLast
  logicWritesVf := .no
  fx1eWritesVf := .no
  loadStoreIncI := .no

/-- FONT (20_memory.md R75, D15): the conventional glyphs 0 to F, 5 bytes each, top row first. PRESUMED (the spec's general
knowledge G1; log 3). Unsafe for a claim about a glyph's shape. -/
def font : List Byte :=
  [0xF0, 0x90, 0x90, 0x90, 0xF0] ++ [0x20, 0x60, 0x20, 0x20, 0x70] ++ [0xF0, 0x10, 0xF0, 0x80, 0xF0]
  ++ [0xF0, 0x10, 0xF0, 0x10, 0xF0] ++ [0x90, 0x90, 0xF0, 0x10, 0x10] ++ [0xF0, 0x80, 0xF0, 0x10, 0xF0]
  ++ [0xF0, 0x80, 0xF0, 0x90, 0xF0] ++ [0xF0, 0x10, 0x20, 0x40, 0x40] ++ [0xF0, 0x90, 0xF0, 0x90, 0xF0]
  ++ [0xF0, 0x90, 0xF0, 0x10, 0xF0] ++ [0xF0, 0x90, 0xF0, 0x90, 0x90] ++ [0xE0, 0x90, 0xE0, 0x90, 0xE0]
  ++ [0xF0, 0x80, 0x80, 0x80, 0xF0] ++ [0xE0, 0x90, 0x90, 0x90, 0xE0] ++ [0xF0, 0x80, 0xF0, 0x80, 0xF0]
  ++ [0xF0, 0x80, 0xF0, 0x80, 0x80]

/-- What memory holds at address `a` after `Reset` (10_state.md R35): 0, except `MEM[0x050 + i] = FONT[i]` for `i` in 0..79. -/
def resetByte (a : Nat) : Byte :=
  if fontBase ≤ a ∧ a < fontBase + 80 then font.getD (a - fontBase) 0 else 0

end Sys2Proof.Machine
end

