-- ==== Sys2Proof/Machine/Memory.lean ====
section
/-! DEFINITION. The memory array MEM (20_memory.md R60) as a list of cells in one canonical form (log 23): addresses strictly
rising and below 4096, no cell equal to what its address holds after reset, which is what an unlisted address reads as. -/

namespace Sys2Proof.Machine

/-- MEM, 4096 bytes (10_state.md R36), written as the bytes that differ from their reset contents. -/
abbrev Memory := List Host.Cell

/-- The byte listed at an address, if any. -/
def memLookup : Memory → Nat → Option Byte
  | [], _ => none
  | c :: cs, a => if c.1 = a then some c.2 else memLookup cs a

/-- The byte at address `a`: the listed one, else the reset contents. -/
def memGet (m : Memory) (a : Nat) : Byte := (memLookup m a).getD (resetByte a)

/-- Put a cell at its place in a list of rising addresses. -/
def memInsert (a : Nat) (b : Byte) : Memory → Memory
  | [] => [(a, b)]
  | c :: cs => if a < c.1 then (a, b) :: c :: cs else c :: memInsert a b cs

/-- Store `b` at address `a`, keeping the canonical form: the cell goes away when `b` is what an unlisted address reads as. -/
def memSet (m : Memory) (a : Nat) (b : Byte) : Memory :=
  if b = resetByte a then m.filter (fun c => c.1 != a) else memInsert a b (m.filter (fun c => c.1 != a))

/-- The addresses of the list rise strictly from `lo` (or above) on. -/
def memRising (lo : Nat) : Memory → Bool
  | [] => true
  | c :: cs => decide (lo ≤ c.1) && memRising (c.1 + 1) cs

/-- The canonical form: addresses strictly rising, below 4096, no cell equal to the reset contents of its address. -/
def Memory.wf (m : Memory) : Bool :=
  memRising 0 m && m.all (fun c => decide (c.1 < memSize) && c.2 != resetByte c.1)

end Sys2Proof.Machine
end

