-- ==== Sys2Proof/Machine/State.lean ====
section
/-! DEFINITION. All the state the spec gives the machine (10_state.md R20 to R36; R39: nothing else is state), three fields of the
model's own, the reasons a step can stop, and the state after reset (R35). -/

namespace Sys2Proof.Machine

/-- FAULT (10_state.md R32): what the core has failed with. Every value but `none` is the frozen condition (60_exceptions.md R205). -/
inductive FaultCode where
  | none
  | unknownOpcode
  | stackOverflow
  | stackUnderflow
  deriving DecidableEq, Repr

/-- The refusal of a `Load` event, reported to the host (20_memory.md R72). It is no value of FAULT. -/
inductive LoadError where
  | romTooLarge
  deriving DecidableEq, Repr

/-- The framebuffer: 32 rows of 64 pixels, `FB[r][c]` (10_state.md R31). -/
abbrev Framebuffer := Vector (Vector Bool 64) 32

/-- The machine. -/
structure State where
  /-- V0 to VF (R20, R21). -/
  v : Vector Byte 16
  /-- I (R22); bits 15 to 12 are 0 in every reachable state. -/
  i : Word
  /-- PC (R23). -/
  pc : Word
  /-- DT (R24). -/
  dt : Byte
  /-- ST (R25). -/
  st : Byte
  /-- STACK (R26). -/
  stack : Vector Word 16
  /-- SP, 0 to 16 (R27). -/
  sp : Fin 17
  /-- MEM (R36). -/
  mem : Memory
  /-- FB (R31). -/
  fb : Framebuffer
  /-- KEY, `true` is down (R34). -/
  key : Vector Bool 16
  /-- FAULT (R32). -/
  fault : FaultCode
  /-- FAULT_OP (R32). -/
  faultOp : Word
  /-- FAULT_PC (R32). -/
  faultPc : Word
  /-- THE MODEL'S OWN: how many random bytes have been drawn (R33). DESIGN CHOICE (log 2). Safe. -/
  draws : Nat
  /-- THE MODEL'S OWN: the events still to be applied, oldest first (00_scope.md R7). DESIGN CHOICE (log 1). Safe. -/
  events : List Event
  /-- THE MODEL'S OWN: what the last `Load` reported to the host (20_memory.md R72). DESIGN CHOICE (log 11). Safe. -/
  loadError : Option LoadError
  deriving DecidableEq, Repr

/-- Why a step can stop with a fault. No instruction does. -/
inductive Fault where
  /-- Raised by a `Load` event whose `start` is not below 4096, which the host must not issue (20_memory.md R72, D17). Safe: the
  model stops where the spec says nothing. -/
  | loadStartOutOfRange
  deriving DecidableEq, Repr

/-- Why a step can refuse. No step does: every instruction has its meaning. -/
inductive Refusal where
  /-- Raised by an arm of `exec` that rejects its instruction by name; there is no such arm. Safe. -/
  | notModelled (mnemonic : String)
  deriving DecidableEq, Repr

/-- What a meaning answers. -/
abbrev Result := Host.Outcome State Fault Refusal

/-- The state right after `Reset` (R35, 70_reset_and_hazards.md R230): every value is the spec's, but for the three fields of
the model's own (log 1, 2, 11). -/
def State.reset : State where
  v := Vector.replicate 16 0
  i := 0
  pc := 0x0200
  dt := 0
  st := 0
  stack := Vector.replicate 16 0
  sp := 0
  mem := []
  fb := Vector.replicate 32 (Vector.replicate 64 false)
  key := Vector.replicate 16 false
  fault := .none
  faultOp := 0
  faultPc := 0
  draws := 0
  events := []
  loadError := none

end Sys2Proof.Machine
end

