-- ==== Sys2Proof/Machine/Ops.lean ====
section
/-! DEFINITION. The named operations over registers, memory and the stack (00_scope.md R9), and raising an error (60_exceptions.md R204).
There is no return from an error: the machine has no handler and no such instruction (60_exceptions.md R213). -/

namespace Sys2Proof.Machine

/-- `V[x]` (10_state.md R20). -/
def getV (s : State) (x : Nibble) : Byte := s.v[x.toNat]'x.isLt

/-- `V[x] <- b` (10_state.md R20). -/
def setV (s : State) (x : Nibble) (b : Byte) : State := { s with v := s.v.set x.toNat b x.isLt }

/-- `I <- a` (10_state.md R22). -/
def setI (s : State) (a : Word) : State := { s with i := a }

/-- `PC <- a` (10_state.md R23). -/
def setPC (s : State) (a : Word) : State := { s with pc := a }

/-- `DT <- b` (10_state.md R24). -/
def setDT (s : State) (b : Byte) : State := { s with dt := b }

/-- `ST <- b` (10_state.md R25). -/
def setST (s : State) (b : Byte) : State := { s with st := b }

/-- Write the framebuffer (10_state.md R31). -/
def setFB (s : State) (fb : Framebuffer) : State := { s with fb := fb }

/-- The fetch advance, `PC <- (pc0 + 2) mod 2^16` (30_encoding.md R92). A meaning is given the state the cycle began with. -/
def advance (s : State) : State := setPC s (s.pc + 2)

/-- `skip`, `PC <- (PC + 2) mod 2^16` (30_encoding.md R102). -/
def skip (s : State) : State := setPC s (s.pc + 2)

/-- Skip when the condition holds. -/
def skipIf (c : Bool) (s : State) : State := if c then skip s else s

/-- Every address is reduced mod 4096 before the access (20_memory.md R61). -/
def wrapAddr (a : Nat) : Nat := a % memSize

/-- `MemRead(a, 1)` (20_memory.md R74). -/
def memRead (s : State) (a : Nat) : Byte := memGet s.mem (wrapAddr a)

/-- `MemWrite(a, 1, b)` (20_memory.md R74). -/
def memWrite (s : State) (a : Nat) (b : Byte) : State := { s with mem := memSet s.mem (wrapAddr a) b }

/-- Store bytes at `a`, `a + 1`, ... in ascending order (20_memory.md R64). -/
def storeBytes (s : State) (a : Nat) : List Byte → State
  | [] => s
  | b :: bs => storeBytes (memWrite s a b) (a + 1) bs

/-- The `n` bytes at `a`, `a + 1`, ... in ascending order (20_memory.md R64). -/
def loadBytes (s : State) (a : Nat) : Nat → List Byte
  | 0 => []
  | n + 1 => memRead s a :: loadBytes s (a + 1) n

/-- The opcode fetched at PC, big-endian, both addresses reduced (30_encoding.md R91). -/
def fetchWord (s : State) : Word := wordOfBytes (memRead s s.pc.toNat) (memRead s (s.pc.toNat + 1))

/-- `Push(w)` (10_state.md R29): the check comes first, so a failing push writes nothing. -/
def push (s : State) (w : Word) : Except FaultCode State :=
  if h : s.sp.val = 16 then .error .stackOverflow
  else .ok { s with
    stack := s.stack.set s.sp.val w (by have := s.sp.isLt; omega)
    sp := ⟨s.sp.val + 1, by have := s.sp.isLt; omega⟩ }

/-- `Pop()` (10_state.md R30): the pointer is decremented first; the slot keeps its value (D20, log 15). -/
def pop (s : State) : Except FaultCode (Word × State) :=
  if h : s.sp.val = 0 then .error .stackUnderflow
  else .ok (s.stack[s.sp.val - 1]'(by have := s.sp.isLt; omega),
    { s with sp := ⟨s.sp.val - 1, by have := s.sp.isLt; omega⟩ })

/-- `raise E(op, pc0)` (60_exceptions.md R204) in the state `s` the cycle began with: every write of the cycle is discarded, the
PC advance included, and the fault record names the error, the opcode and its address. -/
def raise (s : State) (e : FaultCode) (op : Word) : State := { s with fault := e, faultOp := op, faultPc := s.pc }

/-- The frozen condition, `FAULT != None` (60_exceptions.md R205). -/
def frozen (s : State) : Bool := s.fault != .none

end Sys2Proof.Machine
end

