-- ==== Sys2Proof/Machine/Operands.lean ====
section
/-! DEFINITION. Operand forms and the numbers instructions compute from them (30_encoding.md R96; 43_index_memory.md; 45_keypad.md R183, R184).
Arithmetic is exact on naturals and narrowed at the end (42_alu.md R153). -/

namespace Sys2Proof.Machine

/-- `zext_16(nnn)` (30_encoding.md R96). -/
def zext16 (nnn : Addr) : Word := nnn.setWidth 16

/-- The low nibble of a register, `V[x] & 0x0F`: a glyph number (R162) or a key number (R183; DESIGN CHOICE of the spec, D9, log 7). -/
def lowNibble (b : Byte) : Nibble := b.extractLsb' 0 4

/-- The address of the `k`-th byte of a transfer through I, `(I + k) mod 4096` (20_memory.md R61). -/
def indexAddr (s : State) (k : Nat) : Nat := wrapAddr (s.i.toNat + k)

/-- `nnn + V[0]`, the target of `Bnnn` (40_flow.md R123). -/
def offsetTarget (nnn : Addr) (v0 : Byte) : Word := BitVec.ofNat 16 (nnn.toNat + v0.toNat)

/-- `(I + V[x]) mod 4096` (43_index_memory.md R161). -/
def indexSum (i : Word) (b : Byte) : Word := BitVec.ofNat 16 ((i.toNat + b.toNat) % 4096)

/-- `(I + x + 1) mod 4096`, where I goes under `LOADSTORE_INC_I = x_plus_1` (43_index_memory.md R164). -/
def indexPast (i : Word) (x : Nibble) : Word := BitVec.ofNat 16 ((i.toNat + x.toNat + 1) % 4096)

/-- The address of glyph `d`, `0x050 + 5 * d` (43_index_memory.md R162). -/
def glyphAddr (d : Nibble) : Word := BitVec.ofNat 16 (fontBase + glyphBytes * d.toNat)

/-- Hundreds, tens and ones of a byte (43_index_memory.md R163). -/
def bcdDigits (b : Byte) : List Byte :=
  [BitVec.ofNat 8 (b.toNat / 100), BitVec.ofNat 8 (b.toNat / 10 % 10), BitVec.ofNat 8 (b.toNat % 10)]

/-- V0 to Vx, both included (43_index_memory.md R164). -/
def regsUpTo (s : State) (x : Nibble) : List Byte :=
  (List.range (x.toNat + 1)).map (fun k => getV s (BitVec.ofNat 4 k))

/-- Write a list of bytes to registers `k`, `k + 1`, ... (43_index_memory.md R165). -/
def setRegs (s : State) (k : Nat) : List Byte → State
  | [] => s
  | b :: bs => setRegs (setV s (BitVec.ofNat 4 k) b) (k + 1) bs

/-- `KEY[k]` (10_state.md R34). -/
def keyDown (s : State) (k : Nibble) : Bool := s.key[k.toNat]'k.isLt

/-- The key numbers in rising order. -/
def allKeys : List Nibble := [0x0, 0x1, 0x2, 0x3, 0x4, 0x5, 0x6, 0x7, 0x8, 0x9, 0xA, 0xB, 0xC, 0xD, 0xE, 0xF]

/-- `any_pressed()`: the lowest-numbered key down, if any (45_keypad.md R184; DESIGN CHOICE of the spec, D10, log 8). -/
def anyPressed (s : State) : Option Nibble := allKeys.find? (keyDown s)

end Sys2Proof.Machine
end

