-- ==== Sys2Proof/Machine/Flags.lean ====
section
/-! DEFINITION. The flag VF (10_state.md R21): every computation of it and the order of its write (42_alu.md R152, R153). -/

namespace Sys2Proof.Machine

/-- The register number of VF (10_state.md R21). -/
def vf : Nibble := 0xF

/-- A flag is the 8-bit value 0 or 1 (10_state.md R21). -/
def flagByte (c : Bool) : Byte := if c then 1 else 0

/-- `VF <- flag`. -/
def writeFlag (s : State) (c : Bool) : State := setV s vf (flagByte c)

/-- Carry: the unreduced sum exceeds 255 (42_alu.md R153). -/
def carry (a b : Byte) : Bool := decide (255 < a.toNat + b.toNat)

/-- No borrow: the minuend is at least the subtrahend (42_alu.md R153). -/
def noBorrow (minuend subtrahend : Byte) : Bool := decide (subtrahend.toNat ≤ minuend.toNat)

/-- The bit a right shift moves out, bit 0 (42_alu.md R148). -/
def shiftOutRight (a : Byte) : Bool := decide (a.toNat % 2 = 1)

/-- The bit a left shift moves out, bit 7 (42_alu.md R150). -/
def shiftOutLeft (a : Byte) : Bool := decide (a.toNat / 128 = 1)

/-- `I + V[x]` passes 0xFFF: the flag `Fx1E` writes under `FX1E_WRITES_VF = overflow` (43_index_memory.md R161). -/
def indexOverflow (i : Word) (b : Byte) : Bool := decide (0xFFF < i.toNat + b.toNat)

/-- The result is written to `V[x]` first and the flag to VF last, so for `x = 15` the flag remains (42_alu.md R152). -/
def writeResultFlag (s : State) (x : Nibble) (r : Byte) (c : Bool) : State := writeFlag (setV s x r) c

end Sys2Proof.Machine
end

