-- ==== Sys2Proof/Machine/Alu.lean ====
section
/-! DEFINITION. Register load, arithmetic, logic, shift, random: `6xnn`, `7xnn`, `8xy0` to `8xyE`, `Cxnn` (42_alu.md).
Source operands are read from the state the cycle began with (R152). -/

namespace Sys2Proof.Machine

/-- `(a + b) mod 256` (R153). -/
def addByte (a b : Byte) : Byte := BitVec.ofNat 8 (a.toNat + b.toNat)

/-- `(a - b) mod 256`, in 0..255 (R153). -/
def subByte (a b : Byte) : Byte := BitVec.ofNat 8 (a.toNat + 256 - b.toNat)

/-- `a div 2` (R153). -/
def shrByte (a : Byte) : Byte := BitVec.ofNat 8 (a.toNat / 2)

/-- `(a * 2) mod 256` (R153). -/
def shlByte (a : Byte) : Byte := BitVec.ofNat 8 (a.toNat * 2)

/-- A logic instruction under a dialect (R143): the result, then VF cleared where `LOGIC_WRITES_VF` says so. -/
def logicOp (d : Dialect) (x : Nibble) (r : Byte) (s : State) : State :=
  match d.logicWritesVf with
  | .no => setV (advance s) x r
  | .clearTo0 => setV (setV (advance s) x r) vf 0

/-- A right shift under a dialect (R148, R152): flag last, or the flag first and then the shift of what `V[x]` then holds. -/
def shrOp (d : Dialect) (x : Nibble) (s : State) : State :=
  match d.vfWriteOrder with
  | .flagLast => writeResultFlag (advance s) x (shrByte (getV s x)) (shiftOutRight (getV s x))
  | .literalRows =>
    setV (writeFlag (advance s) (shiftOutRight (getV s x))) x
      (shrByte (getV (writeFlag (advance s) (shiftOutRight (getV s x))) x))

/-- A left shift under a dialect (R150, R152). -/
def shlOp (d : Dialect) (x : Nibble) (s : State) : State :=
  match d.vfWriteOrder with
  | .flagLast => writeResultFlag (advance s) x (shlByte (getV s x)) (shiftOutLeft (getV s x))
  | .literalRows =>
    setV (writeFlag (advance s) (shiftOutLeft (getV s x))) x
      (shlByte (getV (writeFlag (advance s) (shiftOutLeft (getV s x))) x))

/-- `Cxnn` with the draw as an argument (R151): `V[x] <- RND & nn`, and the draw is used up. -/
def rndOp (draw : Byte) (x : Nibble) (nn : Byte) (s : State) : State :=
  { setV (advance s) x (draw &&& nn) with draws := s.draws + 1 }

/-- `6xnn` (R140): `V[x] <- nn`. -/
def execLdByte (x : Nibble) (nn : Byte) (s : State) : Result := .next (setV (advance s) x nn)

/-- `7xnn` (R141): `V[x] <- (V[x] + nn) mod 256`, no flag. -/
def execAddByte (x : Nibble) (nn : Byte) (s : State) : Result :=
  .next (setV (advance s) x (addByte (getV s x) nn))

/-- `8xy0` (R142): `V[x] <- V[y]`. -/
def execLdReg (x y : Nibble) (s : State) : Result := .next (setV (advance s) x (getV s y))

/-- `8xy1` (R143): `V[x] <- V[x] | V[y]`. -/
def execOrReg (x y : Nibble) (s : State) : Result := .next (logicOp dialect x (getV s x ||| getV s y) s)

/-- `8xy2` (R144): `V[x] <- V[x] & V[y]`. -/
def execAndReg (x y : Nibble) (s : State) : Result := .next (logicOp dialect x (getV s x &&& getV s y) s)

/-- `8xy3` (R145): `V[x] <- V[x] ^ V[y]`. -/
def execXorReg (x y : Nibble) (s : State) : Result := .next (logicOp dialect x (getV s x ^^^ getV s y) s)

/-- `8xy4` (R146): the sum, then VF = carry. -/
def execAddReg (x y : Nibble) (s : State) : Result :=
  .next (writeResultFlag (advance s) x (addByte (getV s x) (getV s y)) (carry (getV s x) (getV s y)))

/-- `8xy5` (R147): `V[x] - V[y]`, then VF = no borrow. -/
def execSubReg (x y : Nibble) (s : State) : Result :=
  .next (writeResultFlag (advance s) x (subByte (getV s x) (getV s y)) (noBorrow (getV s x) (getV s y)))

/-- `8xy6` (R148): shift right by one; `y` is ignored (30_encoding.md R103). -/
def execShr (x _y : Nibble) (s : State) : Result := .next (shrOp dialect x s)

/-- `8xy7` (R149): `V[y] - V[x]`, then VF = no borrow. -/
def execSubnReg (x y : Nibble) (s : State) : Result :=
  .next (writeResultFlag (advance s) x (subByte (getV s y) (getV s x)) (noBorrow (getV s y) (getV s x)))

/-- `8xyE` (R150): shift left by one; `y` is ignored (30_encoding.md R103). -/
def execShl (x _y : Nibble) (s : State) : Result := .next (shlOp dialect x s)

/-- `Cxnn` (R151): the draw is the free value `Config.rnd` at the counter in State (log 2). -/
def execRnd (x : Nibble) (nn : Byte) (s : State) : Result := .next (rndOp (Config.rnd s.draws) x nn s)

end Sys2Proof.Machine
end

