-- ==== Sys2Proof/Machine/Display.lean ====
section
/-! DEFINITION. The display controller: `00E0`, `Dxyn` (44_display.md). -/

namespace Sys2Proof.Machine

/-- `FB[r][c]` (10_state.md R31). -/
def pixel (fb : Framebuffer) (r : Fin 32) (c : Fin 64) : Bool := fb[r][c]

/-- `FB[r][c] <- b` (10_state.md R31). -/
def setPixel (fb : Framebuffer) (r : Fin 32) (c : Fin 64) (b : Bool) : Framebuffer := fb.set r (fb[r].set c b)

/-- `clear()`: every pixel off (R170). -/
def clearFB : Framebuffer := Vector.replicate 32 (Vector.replicate 64 false)

/-- Sprite bit with `bit_index` `c`: bit `7 - c` of the byte, bit 7 leftmost (R172; DEDUCED by the spec, N3, log 18). -/
def spriteBit (b : Byte) (c : Nat) : Bool := b.getLsbD (7 - c)

/-- The column of the pixel with `bit_index` `c`, `(vx + c) mod 64` (R172). -/
def pixelCol (vx : Byte) (c : Nat) : Fin 64 := Fin.ofNat 64 (vx.toNat + c)

/-- The row of the pixel with `row_index` `r`, `(vy + r) mod 32` (R172). -/
def pixelRow (vy : Byte) (r : Nat) : Fin 32 := Fin.ofNat 32 (vy.toNat + r)

/-- One pixel of a draw: XOR it, and note a collision when an on pixel meets a set bit (R172, R173). -/
def drawBit (vx : Byte) (row : Fin 32) (b : Byte) (acc : Framebuffer × Bool) (c : Nat) : Framebuffer × Bool :=
  (setPixel acc.1 row (pixelCol vx c) (pixel acc.1 row (pixelCol vx c) ^^ spriteBit b c),
    acc.2 || (pixel acc.1 row (pixelCol vx c) && spriteBit b c))

/-- One row of a draw, `bit_index` 0 to 7 (R172). -/
def drawRow (vx : Byte) (row : Fin 32) (b : Byte) (acc : Framebuffer × Bool) : Framebuffer × Bool :=
  [0, 1, 2, 3, 4, 5, 6, 7].foldl (drawBit vx row b) acc

/-- The rows of a draw from `row_index` `r` on (R172). -/
def drawRows (vx vy : Byte) (r : Nat) : List Byte → Framebuffer × Bool → Framebuffer × Bool
  | [], acc => acc
  | b :: bs, acc => drawRows vx vy (r + 1) bs (drawRow vx (pixelRow vy r) b acc)

/-- `draw_sprite(vx, vy, sprite)` (R172): the new framebuffer and the collision flag (R173). -/
def drawSprite (vx vy : Byte) (sprite : List Byte) (fb : Framebuffer) : Framebuffer × Bool :=
  drawRows vx vy 0 sprite (fb, false)

/-- The sprite bytes `MEM[I + r]` for `r` in 0..n-1 (R171). -/
def spriteBytes (n : Nibble) (s : State) : List Byte := loadBytes s s.i.toNat n.toNat

/-- `Dxyn` as a state change (R171): the draw, then VF = collision, always written, last. -/
def drawOp (x y n : Nibble) (s : State) : State :=
  writeFlag (setFB (advance s) (drawSprite (getV s x) (getV s y) (spriteBytes n s) s.fb).1)
    (drawSprite (getV s x) (getV s y) (spriteBytes n s) s.fb).2

/-- `00E0` (R170). -/
def execCls (s : State) : Result := .next (setFB (advance s) clearFB)

/-- `Dxyn` (R171): never waits (D21, log 17). -/
def execDrw (x y n : Nibble) (s : State) : Result := .next (drawOp x y n s)

end Sys2Proof.Machine
end

