-- ==== Sys2Proof/Machine/Flow.lean ====
section
/-! DEFINITION. Control transfer: `00EE`, `1nnn`, `2nnn`, `Bnnn` (40_flow.md). -/

namespace Sys2Proof.Machine

/-- `00EE` (R120): `PC <- Pop()`; StackUnderflow when `SP = 0`, then nothing else is changed. -/
def execRet (s : State) : Result :=
  match pop (advance s) with
  | .error e => .next (raise s e (encode .ret))
  | .ok (w, t) => .next (setPC t w)

/-- `1nnn` (R121): `PC <- nnn`. -/
def execJp (nnn : Addr) (s : State) : Result := .next (setPC (advance s) (zext16 nnn))

/-- `2nnn` (R122): push the advanced PC, then `PC <- nnn`; StackOverflow when `SP = 16`, then nothing else is changed. -/
def execCall (nnn : Addr) (s : State) : Result :=
  match push (advance s) (advance s).pc with
  | .error e => .next (raise s e (encode (.call nnn)))
  | .ok t => .next (setPC t (zext16 nnn))

/-- `Bnnn` (R123): `PC <- nnn + V[0]`, always V0. -/
def execJpV0 (nnn : Addr) (s : State) : Result := .next (setPC (advance s) (offsetTarget nnn (getV s 0)))

end Sys2Proof.Machine
end

