-- ==== Sys2Proof/Machine/IndexMemory.lean ====
section
/-! DEFINITION. Index register and memory transfer: `Annn`, `Fx1E`, `Fx29`, `Fx33`, `Fx55`, `Fx65` (43_index_memory.md). -/

namespace Sys2Proof.Machine

/-- `Fx1E` under a dialect (R161): `I <- (I + V[x]) mod 4096`, then VF where `FX1E_WRITES_VF` says so. -/
def addIndexOp (d : Dialect) (x : Nibble) (s : State) : State :=
  match d.fx1eWritesVf with
  | .no => setI (advance s) (indexSum s.i (getV s x))
  | .overflow => writeFlag (setI (advance s) (indexSum s.i (getV s x))) (indexOverflow s.i (getV s x))

/-- Where I ends after `Fx55` and `Fx65` (R164): unchanged, or past the transfer where `LOADSTORE_INC_I` says so. -/
def stepIndex (d : Dialect) (x : Nibble) (s : State) : State :=
  match d.loadStoreIncI with
  | .no => s
  | .xPlus1 => setI s (indexPast s.i x)

/-- `Fx55` under a dialect (R164): `MEM[I + k] <- V[k]` for `k` in 0..x. -/
def storeRegsOp (d : Dialect) (x : Nibble) (s : State) : State :=
  stepIndex d x (storeBytes (advance s) s.i.toNat (regsUpTo s x))

/-- `Fx65` under a dialect (R165): `V[k] <- MEM[I + k]` for `k` in 0..x. -/
def loadRegsOp (d : Dialect) (x : Nibble) (s : State) : State :=
  stepIndex d x (setRegs (advance s) 0 (loadBytes s s.i.toNat (x.toNat + 1)))

/-- `Annn` (R160): `I <- nnn`. -/
def execLdI (nnn : Addr) (s : State) : Result := .next (setI (advance s) (zext16 nnn))

/-- `Fx1E` (R161). -/
def execAddI (x : Nibble) (s : State) : Result := .next (addIndexOp dialect x s)

/-- `Fx29` (R162): `I <- 0x050 + 5 * (V[x] & 0x0F)`. -/
def execLdF (x : Nibble) (s : State) : Result := .next (setI (advance s) (glyphAddr (lowNibble (getV s x))))

/-- `Fx33` (R163): hundreds, tens and ones of `V[x]` at I, I + 1, I + 2. -/
def execLdB (x : Nibble) (s : State) : Result := .next (storeBytes (advance s) s.i.toNat (bcdDigits (getV s x)))

/-- `Fx55` (R164). -/
def execLdMemVx (x : Nibble) (s : State) : Result := .next (storeRegsOp dialect x s)

/-- `Fx65` (R165). -/
def execLdVxMem (x : Nibble) (s : State) : Result := .next (loadRegsOp dialect x s)

end Sys2Proof.Machine
end

