-- ==== Sys2Proof/Machine/Keypad.lean ====
section
/-! DEFINITION. The keypad instructions: `Ex9E`, `ExA1`, `Fx0A` (45_keypad.md). -/

namespace Sys2Proof.Machine

/-- `Ex9E` (R180): skip if the key numbered by the low nibble of `V[x]` is down. -/
def execSkp (x : Nibble) (s : State) : Result := .next (skipIf (keyDown s (lowNibble (getV s x))) (advance s))

/-- `ExA1` (R181): skip if that key is up. -/
def execSknp (x : Nibble) (s : State) : Result := .next (skipIf (!keyDown s (lowNibble (getV s x))) (advance s))

/-- `Fx0A` (R182): with a key down `V[x]` gets its number; with none PC goes back to `pc0`, so the state is as it was and the
next cycle fetches the same instruction (D11, log 9). -/
def execLdVxK (x : Nibble) (s : State) : Result :=
  match anyPressed s with
  | some k => .next (setV (advance s) x (k.setWidth 8))
  | none => .next (setPC (advance s) s.pc)

end Sys2Proof.Machine
end

