-- ==== Sys2Proof/Machine/Skip.lean ====
section
/-! DEFINITION. The four register-compare skips: `3xnn`, `4xnn`, `5xy0`, `9xy0` (41_skip.md). -/

namespace Sys2Proof.Machine

/-- `3xnn` (R130): skip if `V[x] = nn`. -/
def execSeByte (x : Nibble) (nn : Byte) (s : State) : Result := .next (skipIf (getV s x == nn) (advance s))

/-- `4xnn` (R131): skip if `V[x] != nn`. -/
def execSneByte (x : Nibble) (nn : Byte) (s : State) : Result := .next (skipIf (getV s x != nn) (advance s))

/-- `5xy0` (R132): skip if `V[x] = V[y]`. -/
def execSeReg (x y : Nibble) (s : State) : Result := .next (skipIf (getV s x == getV s y) (advance s))

/-- `9xy0` (R133): skip if `V[x] != V[y]`. -/
def execSneReg (x y : Nibble) (s : State) : Result := .next (skipIf (getV s x != getV s y) (advance s))

end Sys2Proof.Machine
end

