-- ==== Sys2Proof/Machine/Timers.lean ====
section
/-! DEFINITION. Timer access: `Fx07`, `Fx15`, `Fx18` (46_timers.md). -/

namespace Sys2Proof.Machine

/-- `Fx07` (R190): `V[x] <- DT`. -/
def execLdVxDT (x : Nibble) (s : State) : Result := .next (setV (advance s) x s.dt)

/-- `Fx15` (R191): `DT <- V[x]`. -/
def execLdDTVx (x : Nibble) (s : State) : Result := .next (setDT (advance s) (getV s x))

/-- `Fx18` (R192): `ST <- V[x]`. -/
def execLdSTVx (x : Nibble) (s : State) : Result := .next (setST (advance s) (getV s x))

end Sys2Proof.Machine
end

