-- ==== Sys2Proof/Machine/Events.lean ====
section
/-! DEFINITION. The five events (00_scope.md R6), what the host reads between them (10_state.md R37) and the error codes (60_exceptions.md R207). -/

namespace Sys2Proof.Machine

/-- `Cycle` (30_encoding.md R101): frozen test, fetch, decode, execute. The opcode is read once, at the start; the PC advance is
the meaning's first act, so the state given to it, and to `raise`, is the one the cycle began with. -/
def cycle (s : State) : Result :=
  if frozen s then .next s
  else
    match decode (fetchWord s) with
    | .unknownOpcode op => .next (raise s .unknownOpcode op)
    | .instruction i => exec i s

/-- A timer above 0 goes down by one; at 0 it stays (60_exceptions.md R210). -/
def decay (b : Byte) : Byte := if 0 < b.toNat then b - 1 else b

/-- `Tick` (60_exceptions.md R210). -/
def tick (s : State) : State := if frozen s then s else { s with dt := decay s.dt, st := decay s.st }

/-- `KeySet(k, b)` (45_keypad.md R185). -/
def keySet (k : Nibble) (b : Bool) (s : State) : State :=
  if frozen s then s else { s with key := s.key.set k.toNat b k.isLt }

/-- `Reset` (70_reset_and_hazards.md R230): usable at any time (D16, log 13). The events still to come and the count of draws
are not the core's and stay (log 1, 2). -/
def resetEvent (s : State) : State := { State.reset with draws := s.draws, events := s.events }

/-- `Load(start, bytes)` (20_memory.md R72): refused whole when it would pass 4096, memory unchanged; otherwise the bytes
verbatim. Frozen, it changes nothing (00_scope.md R12). The host's duty to issue it before the first cycle is not checked
(C13), and a start the host must not give is a fault of its own (D17; log 11). -/
def loadEvent (start : Nat) (bytes : List Byte) (s : State) : Result :=
  if frozen s then .next s
  else if memSize ≤ start then .fault .loadStartOutOfRange
  else if memSize < start + bytes.length then .next { s with loadError := some .romTooLarge }
  else .next { storeBytes s start bytes with loadError := none }

/-- Apply one event (00_scope.md R6, R7). -/
def applyEvent (e : Event) (s : State) : Result :=
  match e with
  | .cycle => cycle s
  | .tick => .next (tick s)
  | .keySet k b => .next (keySet k b s)
  | .reset => .next (resetEvent s)
  | .load start bytes => loadEvent start bytes s

/-- `SOUND = (ST > 0)` (10_state.md R37, D22). -/
def sound (s : State) : Bool := decide (0 < s.st.toNat)

/-- What the host may read between events (10_state.md R37, 20_memory.md R73): the display, the sound timer and SOUND, memory
byte by byte, and the fault record. -/
structure Outputs where
  fb : Framebuffer
  st : Byte
  sound : Bool
  mem : List Byte
  fault : FaultCode
  faultOp : Word
  faultPc : Word
  deriving DecidableEq, Repr

/-- The outputs of a state (10_state.md R37). -/
def outputs (s : State) : Outputs where
  fb := s.fb
  st := s.st
  sound := sound s
  mem := loadBytes s 0 memSize
  fault := s.fault
  faultOp := s.faultOp
  faultPc := s.faultPc

/-- The number of each FAULT value (60_exceptions.md R207, D14). -/
def faultNumber : FaultCode → Nat
  | .none => 0
  | .unknownOpcode => 1
  | .stackOverflow => 2
  | .stackUnderflow => 3

/-- The number of a `Load` refusal (60_exceptions.md R207, D14); 5, AddressOutOfRange, is never produced. -/
def loadErrorNumber : LoadError → Nat
  | .romTooLarge => 4

/-- The state with the two bytes of an opcode stored big-endian at PC (20_memory.md R63), no event waiting before the next cycle
and the core not frozen, so that the next step runs it. -/
def placeWord (s : State) (op : Word) : State :=
  storeBytes { s with events := [], fault := .none } s.pc.toNat [highByte op, lowByte op]

end Sys2Proof.Machine
end

