-- ==== Sys2Proof/Machine/Step.lean ====
section
/-! DEFINITION. One step: the next event is applied (00_scope.md R7); with none waiting it is a `Cycle` (log 1). -/

namespace Sys2Proof.Machine

/-- One step of the machine. -/
def step (s : State) : Host.Outcome State Fault Refusal :=
  match s.events with
  | [] => cycle s
  | e :: es => applyEvent e { s with events := es }

/-- The state with the instruction of a table word stored where the next step fetches (log 21). -/
def State.withFetchWord (s : State) (nbits w : Nat) : State := placeWord s (tableWord nbits w)

end Sys2Proof.Machine
end

