-- ==== Sys2Proof/Safety.lean ====
section
/-! DEFINITION. What counts as gone wrong (60_exceptions.md R205), what the host must do (70_reset_and_hazards.md R244), and the
invariants claims use (10_state.md R41). -/

namespace Sys2Proof.Safety

open Sys2Proof.Machine

/-- A state a run may be in and still be counted as good: not frozen. A frozen state is never the successful end of a program
(60_exceptions.md R205). -/
def good (s : State) : Bool := !frozen s

/-- The finished condition R233 offers as an example: not frozen, and PC at a `1nnn` whose target is its own address. -/
def idle (s : State) : Bool :=
  good s && decide (decode (fetchWord s) = .instruction (.jp (s.pc.extractLsb' 0 12))) && decide (s.pc.toNat < 4096)

/-- No `Load` follows a `Cycle` but with a `Reset` between (R231, R244, 20_memory.md R72), and every `Load` starts inside memory.
`started` says whether a cycle has run since the last reset. -/
def hostOrder (started : Bool) : List Event → Bool
  | [] => true
  | .cycle :: es => hostOrder true es
  | .reset :: es => hostOrder false es
  | .load start bytes :: es => !started && Event.wellFormed (.load start bytes) && hostOrder started es
  | .tick :: es => hostOrder started es
  | .keySet _ _ :: es => hostOrder started es

/-- The invariant of 10_state.md R41 that is not already in the types, with the canonical form of memory. -/
def inv (s : State) : Bool := decide (s.i.toNat < 4096) && s.mem.wf

/-- The fault record of a frozen core explains itself (60_exceptions.md R201 to R204): it names the word at PC and the address
PC, and the error is the one that word raises in that state. -/
def faultExplained (s : State) : Bool :=
  match s.fault with
  | .none => true
  | .unknownOpcode =>
    decide (s.faultPc = s.pc) && decide (s.faultOp = fetchWord s) && !wellFormedWord s.faultOp
  | .stackOverflow =>
    decide (s.faultPc = s.pc) && decide (s.faultOp = fetchWord s) && decide (fieldT s.faultOp = 2) && decide (s.sp.val = 16)
  | .stackUnderflow =>
    decide (s.faultPc = s.pc) && decide (s.faultOp = fetchWord s) && decide (s.faultOp = 0x00EE) && decide (s.sp.val = 0)

end Sys2Proof.Safety
end

