-- ==== Sys2Proof/Certificates/Slice0/Obligations.lean ====
section
/-! DEFINITION. The statements for the provers, from the numbered rules of spec/, and the small vocabulary they are written in.
No statement rests on the value of a free value; where one rests on a choice the spec marks as its own, its docstring says so. -/

namespace Sys2Proof.Claim

open Sys2Proof.Machine

/-- The parts of the state a frame speaks of. -/
inductive Part where
  | regs | index | pc | dt | st | stack | mem | fb | keys | faultRecord | draws | events | loadError
  deriving DecidableEq, Repr

/-- A part reads in `t` as it read in `s`: registers, pixels and memory bytes one by one. -/
def kept (p : Part) (s t : State) : Prop :=
  match p with
  | .regs => ∀ r, getV t r = getV s r
  | .index => t.i = s.i
  | .pc => t.pc = s.pc
  | .dt => t.dt = s.dt
  | .st => t.st = s.st
  | .stack => t.sp = s.sp ∧ t.stack = s.stack
  | .mem => ∀ a, memRead t a = memRead s a
  | .fb => ∀ r c, pixel t.fb r c = pixel s.fb r c
  | .keys => ∀ k, keyDown t k = keyDown s k
  | .faultRecord => t.fault = s.fault ∧ t.faultOp = s.faultOp ∧ t.faultPc = s.faultPc
  | .draws => t.draws = s.draws
  | .events => t.events = s.events
  | .loadError => t.loadError = s.loadError

/-- Every part but the listed ones is kept. -/
def keptBut (ps : List Part) (s t : State) : Prop := ∀ p, p ∉ ps → kept p s t

/-- Every register but the listed ones is kept. -/
def regsKeptBut (xs : List Nibble) (s t : State) : Prop := ∀ r, r ∉ xs → getV t r = getV s r

/-- Every byte of memory is kept but the `n` bytes at the addresses `indexAddr s 0` to `indexAddr s (n - 1)`, the function the
meanings store through. -/
def memKeptOutside (n : Nat) (s t : State) : Prop :=
  ∀ a, (∀ k, k < n → wrapAddr a ≠ indexAddr s k) → memRead t a = memRead s a

/-- The set bit a sprite of `n` rows at column `vx`, row `vy` puts on pixel `(r, c)`, if it puts one there. The pixel is
`row_index` `(r - vy) mod 32` and `bit_index` `(c - vx) mod 64` of the sprite (44_display.md R172). -/
def spriteOn (s : State) (vx vy : Byte) (n : Nibble) (r : Fin 32) (c : Fin 64) : Bool :=
  decide ((r.val + 256 - vy.toNat) % 32 < n.toNat) && decide ((c.val + 256 - vx.toNat) % 64 < 8) &&
    (memRead s (s.i.toNat + (r.val + 256 - vy.toNat) % 32)).getLsbD (7 - (c.val + 256 - vx.toNat) % 64)

/-- Push a list of words in order. -/
def pushAll (s : State) : List Word → Except FaultCode State
  | [] => .ok s
  | w :: ws => match push s w with
    | .ok t => pushAll t ws
    | .error e => .error e

/-- Pop `n` words, the first popped first. -/
def popAll (s : State) : Nat → Except FaultCode (List Word × State)
  | 0 => .ok ([], s)
  | n + 1 => match pop s with
    | .error e => .error e
    | .ok (w, t) => match popAll t n with
      | .error e => .error e
      | .ok (ws, u) => .ok (w :: ws, u)

/-- The instructions that write the display (10_state.md R40). -/
def writesDisplay : Instr → Bool
  | .cls => true
  | .drw _ _ _ => true
  | _ => false

/-- The instructions that write memory (R40). -/
def writesMemory : Instr → Bool
  | .ldB _ => true
  | .ldMemVx _ => true
  | _ => false

/-- The instructions that write STACK or SP (R40). -/
def writesStack : Instr → Bool
  | .ret => true
  | .call _ => true
  | _ => false

/-- The instructions that write I (R40). -/
def writesIndex : Instr → Bool
  | .ldI _ => true
  | .addI _ => true
  | .ldF _ => true
  | _ => false

/-- The general register an instruction names as its destination in its `x` field (R40). -/
def destination : Instr → Option Nibble
  | .ldByte x _ => some x
  | .addByte x _ => some x
  | .ldReg x _ => some x
  | .orReg x _ => some x
  | .andReg x _ => some x
  | .xorReg x _ => some x
  | .addReg x _ => some x
  | .subReg x _ => some x
  | .shr x _ => some x
  | .subnReg x _ => some x
  | .shl x _ => some x
  | .rnd x _ => some x
  | .ldVxDT x => some x
  | .ldVxK x => some x
  | _ => none

/-- The six instructions that write VF as a flag (10_state.md R21). -/
def writesFlag : Instr → Bool
  | .addReg _ _ => true
  | .subReg _ _ => true
  | .shr _ _ => true
  | .subnReg _ _ => true
  | .shl _ _ => true
  | .drw _ _ _ => true
  | _ => false

/-- The registers `Fx65` writes, V0 to Vx (43_index_memory.md R165). -/
def loadsFromMemory : Instr → Nibble → Bool
  | .ldVxMem x, r => decide (r.toNat ≤ x.toNat)
  | _, _ => false

end Sys2Proof.Claim

open Sys2Proof Sys2Proof.Machine Sys2Proof.Claim

/-! ### Encoding -/

/-- 30_encoding.md R93 to R95, R98: decoding the encoding of any instruction gives it back, from the word and from its two bytes,
so no bit of an operand is dropped. -/
def Obligations.EncodeThenDecodeGivesInstruction : Prop :=
  ∀ i : Instr, decode (encode i) = .instruction i ∧
    decodeBytes (highByte (encode i)) (lowByte (encode i)) = .instruction i

/-- R95: at most one word stands for an instruction. That the `y` of `8xy6` and `8xyE`, which every value leaves without effect
(R103), is an operand of `shr` and `shl` is the model's own choice (log 25); with it dropped, sixteen words would stand for one. -/
def Obligations.DecodeThenEncodeGivesWord : Prop :=
  ∀ (op : Word) (i : Instr), decode op = .instruction i → encode i = op

/-- R95, R98: the decode procedure and the mask-and-match map agree: a word decodes to an instruction exactly when it selects that
instruction's row, it selects no other row, and it is UnknownOpcode exactly when it selects none. -/
def Obligations.DecodeAgreesWithOpcodeMap : Prop :=
  ∀ op : Word,
    (∀ i, decode op = .instruction i → ∀ r ∈ opcodeTable, (r.selects op = true ↔ r = i.row)) ∧
    (∀ i, decode op = .instruction i → i.row ∈ opcodeTable) ∧
    ((∃ op', decode op = .unknownOpcode op') ↔ ∀ r ∈ opcodeTable, r.selects op = false)

/-- R97: the words of the six undefined families, and no others, get the verdict UnknownOpcode, which carries the word. -/
def Obligations.UndefinedWordsAreTheSixFamilies : Prop :=
  ∀ op : Word, (wellFormedWord op = false ↔ decode op = .unknownOpcode op) ∧
    (wellFormedWord op = true ↔ ∃ i, decode op = .instruction i)

/-- R93, R95, R98: words written out from the encoding, one or more of each of the sixteen families, decode to what they stand
for. -/
def Obligations.SampleWordsDecode : Prop :=
  decode 0x00EE = .instruction .ret ∧ decode 0x1234 = .instruction (.jp 0x234) ∧
  decode 0x2ABC = .instruction (.call 0xABC) ∧ decode 0x3A42 = .instruction (.seByte 0xA 0x42) ∧
  decode 0x4F01 = .instruction (.sneByte 0xF 1) ∧ decode 0x5120 = .instruction (.seReg 1 2) ∧
  decode 0x6105 = .instruction (.ldByte 1 5) ∧ decode 0x7A0A = .instruction (.addByte 0xA 0x0A) ∧
  decode 0x81F4 = .instruction (.addReg 1 0xF) ∧ decode 0x9120 = .instruction (.sneReg 1 2) ∧
  decode 0xA20A = .instruction (.ldI 0x20A) ∧ decode 0xB300 = .instruction (.jpV0 0x300) ∧
  decode 0xCA0F = .instruction (.rnd 0xA 0x0F) ∧ decode 0xD7A5 = .instruction (.drw 7 0xA 5) ∧
  decode 0xF265 = .instruction (.ldVxMem 2) ∧
  decode 0xE1A1 = .instruction (.sknp 1) ∧ decode 0xF30A = .instruction (.ldVxK 3) ∧
  decode 0xF118 = .instruction (.ldSTVx 1) ∧ decode 0x5AB1 = .unknownOpcode 0x5AB1

/-! ### The cycle and the events -/

/-- 20_memory.md R63, 30_encoding.md R91: the opcode is the byte at `pc0 mod 4096` as the high byte and the byte at
`(pc0 + 1) mod 4096` as the low byte, for every `pc0`. -/
def Obligations.FetchIsBigEndian : Prop :=
  ∀ s : State, (fetchWord s).toNat =
    (memGet s.mem (s.pc.toNat % 4096)).toNat * 256 + (memGet s.mem ((s.pc.toNat + 1) % 4096)).toNat

/-- R101: a cycle of a core that is not frozen performs the decoded instruction's rule in the state it began with. With no event
waiting a step is a cycle; a waiting `Cycle` event is the model's own form of the same (log 1). -/
def Obligations.StepRunsDecodedInstruction : Prop :=
  ∀ (s : State) (i : Instr), frozen s = false → decode (fetchWord s) = .instruction i →
    (s.events = [] → step s = exec i s) ∧
    (∀ es, s.events = .cycle :: es → step s = exec i { s with events := es })

/-- 60_exceptions.md R201, 30_encoding.md R97: an undefined word raises UnknownOpcode, a next state in which the fault record alone
is written, whether no event waits (a step is then a cycle) or a `Cycle` event does (log 1). That the record holds `pc0` and
that PC is left at `pc0` is the spec's own decision D13 (log 10). -/
def Obligations.UndefinedWordRaisesUnknownOpcode : Prop :=
  ∀ s : State, frozen s = false → wellFormedWord (fetchWord s) = false →
    (s.events = [] → ∃ t, step s = .next t ∧ t.fault = .unknownOpcode ∧ t.faultOp = fetchWord s ∧ t.faultPc = s.pc ∧
      keptBut [.faultRecord] s t) ∧
    (∀ es, s.events = .cycle :: es → ∃ t, step s = .next t ∧ t.fault = .unknownOpcode ∧ t.faultOp = fetchWord s ∧
      t.faultPc = s.pc ∧ t.events = es ∧ keptBut [.faultRecord, .events] s t)

/-- 60_exceptions.md R205, 00_scope.md R12: in the frozen condition every event but Reset leaves the state unchanged, and Reset
leaves the condition. The spec's own decision D23 (log 10). -/
def Obligations.FrozenCoreLeavesOnlyByReset : Prop :=
  ∀ s : State, frozen s = true →
    (s.events = [] → step s = .next s) ∧
    (∀ e es, s.events = e :: es → e ≠ .reset → step s = .next { s with events := es }) ∧
    (∀ es, s.events = .reset :: es → ∃ t, step s = .next t ∧ frozen t = false)

/-- 10_state.md R28: no event but Cycle and Reset writes V, I, PC, STACK or SP, and only Tick among the others writes DT and ST. -/
def Obligations.HostEventsLeaveRegisters : Prop :=
  ∀ (s t : State) (e : Event) (es : List Event), s.events = e :: es → e ≠ .cycle → e ≠ .reset → step s = .next t →
    kept .regs s t ∧ kept .index s t ∧ kept .pc s t ∧ kept .stack s t ∧
    (e ≠ .tick → kept .dt s t ∧ kept .st s t)

/-- 60_exceptions.md R200, R215: no instruction stops the machine; a step stops only on a Load event that breaks the host's
duty (20_memory.md R72), and that stop is the model's own (log 11). -/
def Obligations.OnlyIllFormedLoadStops : Prop :=
  (∀ (i : Instr) (s : State), ∃ t, exec i s = .next t) ∧
  ∀ s : State, (∃ t, step s = .next t) ∨
    ∃ e es, s.events = e :: es ∧ e.wellFormed = false ∧ frozen s = false ∧ step s = .fault .loadStartOutOfRange

/-! ### Control transfer -/

/-- 40_flow.md R121: `PC <- nnn`, nothing else; a jump to its own address leaves the state as it found it. -/
def Obligations.JumpGoesToLiteral : Prop :=
  ∀ (nnn : Addr) (s : State), ∃ t, exec (.jp nnn) s = .next t ∧ t.pc.toNat = nnn.toNat ∧ keptBut [.pc] s t ∧
    (s.pc.toNat = nnn.toNat → t = s)

/-- 40_flow.md R123: `PC <- nnn + V[0]`, which needs no reduction in 16 bits; the next fetch reads from the sum mod 4096. -/
def Obligations.OffsetJumpAddsV0 : Prop :=
  ∀ (nnn : Addr) (s : State), ∃ t, exec (.jpV0 nnn) s = .next t ∧
    t.pc.toNat = nnn.toNat + (getV s 0).toNat ∧ keptBut [.pc] s t ∧
    (fetchWord t).toNat = (memRead s ((nnn.toNat + (getV s 0).toNat) % 4096)).toNat * 256 +
      (memRead s ((nnn.toNat + (getV s 0).toNat + 1) % 4096)).toNat

/-- 40_flow.md R122: with `SP < 16` the address after the call goes into `STACK[SP]`, SP goes up by one, `PC <- nnn`; the other
slots and everything else are kept. -/
def Obligations.CallPushesReturnAddress : Prop :=
  ∀ (nnn : Addr) (s : State), s.sp.val < 16 → ∃ t, exec (.call nnn) s = .next t ∧
    t.pc.toNat = nnn.toNat ∧ t.sp.val = s.sp.val + 1 ∧ t.stack[s.sp.val]? = some (s.pc + 2) ∧
    (∀ k, k ≠ s.sp.val → t.stack[k]? = s.stack[k]?) ∧ keptBut [.pc, .stack] s t

/-- 40_flow.md R120: with `SP > 0`, SP goes down by one and PC becomes the slot it then names. That no slot changes is the spec's
own decision D20 (log 15). -/
def Obligations.ReturnPopsReturnAddress : Prop :=
  ∀ s : State, 0 < s.sp.val → ∃ t, exec .ret s = .next t ∧ s.stack[s.sp.val - 1]? = some t.pc ∧
    t.sp.val = s.sp.val - 1 ∧ t.stack = s.stack ∧ keptBut [.pc, .stack] s t

/-- 60_exceptions.md R202, R203, R204: a call with `SP = 16` and a return with `SP = 0` write the fault record and nothing else. The
shape of the record is the spec's own decision D13 (log 10). -/
def Obligations.StackErrorsWriteOnlyTheRecord : Prop :=
  (∀ (nnn : Addr) (s : State), s.sp.val = 16 → ∃ t, exec (.call nnn) s = .next t ∧ t.fault = .stackOverflow ∧
    t.faultOp.toNat = 0x2000 + nnn.toNat ∧ t.faultPc = s.pc ∧ keptBut [.faultRecord] s t) ∧
  (∀ s : State, s.sp.val = 0 → ∃ t, exec .ret s = .next t ∧ t.fault = .stackUnderflow ∧
    t.faultOp.toNat = 0x00EE ∧ t.faultPc = s.pc ∧ keptBut [.faultRecord] s t)

/-- 10_state.md R29: `Push`. -/
def Obligations.PushChecksThenWrites : Prop :=
  ∀ (s : State) (w : Word), (s.sp.val = 16 → push s w = .error .stackOverflow) ∧
    (s.sp.val < 16 → ∃ t, push s w = .ok t ∧ t.stack[s.sp.val]? = some w ∧ t.sp.val = s.sp.val + 1 ∧
      (∀ k, k ≠ s.sp.val → t.stack[k]? = s.stack[k]?) ∧ keptBut [.stack] s t)

/-- R29, R30 (95_test_vectors.md S3): words pushed within the capacity come back in reverse order, and the pointer with them. -/
def Obligations.StackIsLastInFirstOut : Prop :=
  ∀ (s : State) (ws : List Word), s.sp.val + ws.length ≤ 16 →
    ∃ t u, pushAll s ws = .ok t ∧ t.sp.val = s.sp.val + ws.length ∧ popAll t ws.length = .ok (ws.reverse, u) ∧ u.sp = s.sp

/-- R120, R122: the return after a call resumes at the instruction after the call, with the stack pointer as before. -/
def Obligations.ReturnUndoesCall : Prop :=
  ∀ (nnn : Addr) (s : State), s.sp.val < 16 → ∃ t u, exec (.call nnn) s = .next t ∧ exec .ret t = .next u ∧
    u.pc = s.pc + 2 ∧ u.sp = s.sp ∧ keptBut [.pc, .stack] s u

/-- 70_reset_and_hazards.md R233: an idle self-jump stays where it is for ever, whatever the rest of the state. -/
def Obligations.IdleLoopStays : Prop :=
  ∀ s : State, Safety.idle s = true → s.events = [] → step s = .next s

/-! ### Skips -/

/-- 41_skip.md R130, R131: `3xnn` and `4xnn` go to `pc0 + 4` when the condition holds and to `pc0 + 2` when not; exactly one of
the two skips. -/
def Obligations.ByteSkips : Prop :=
  ∀ (x : Nibble) (nn : Byte) (s : State), ∃ t u, exec (.seByte x nn) s = .next t ∧ exec (.sneByte x nn) s = .next u ∧
    keptBut [.pc] s t ∧ keptBut [.pc] s u ∧
    (getV s x = nn → t.pc = s.pc + 4 ∧ u.pc = s.pc + 2) ∧
    (getV s x ≠ nn → t.pc = s.pc + 2 ∧ u.pc = s.pc + 4)

/-- 41_skip.md R132, R133: the same for `5xy0` and `9xy0`; a word `5xyn` or `9xyn` with `n != 0` is neither, and undefined. -/
def Obligations.RegisterSkips : Prop :=
  ∀ (x y : Nibble) (s : State), ∃ t u, exec (.seReg x y) s = .next t ∧ exec (.sneReg x y) s = .next u ∧
    keptBut [.pc] s t ∧ keptBut [.pc] s u ∧
    (getV s x = getV s y → t.pc = s.pc + 4 ∧ u.pc = s.pc + 2) ∧
    (getV s x ≠ getV s y → t.pc = s.pc + 2 ∧ u.pc = s.pc + 4) ∧
    (∀ n : Nibble, n ≠ 0 →
      decode (0x5#4 ++ x ++ y ++ n) = .unknownOpcode (0x5#4 ++ x ++ y ++ n) ∧
      decode (0x9#4 ++ x ++ y ++ n) = .unknownOpcode (0x9#4 ++ x ++ y ++ n))

/-- 45_keypad.md R180, R181: the skips on a key. That the key is the low nibble of `V[x]` (R183) is the spec's own decision D9
(log 7). -/
def Obligations.KeySkips : Prop :=
  ∀ (x k : Nibble) (s : State), (getV s x).toNat % 16 = k.toNat →
    ∃ t u, exec (.skp x) s = .next t ∧ exec (.sknp x) s = .next u ∧ keptBut [.pc] s t ∧ keptBut [.pc] s u ∧
    (keyDown s k = true → t.pc = s.pc + 4 ∧ u.pc = s.pc + 2) ∧
    (keyDown s k = false → t.pc = s.pc + 2 ∧ u.pc = s.pc + 4)

/-! ### Registers and arithmetic -/

/-- 42_alu.md R140. -/
def Obligations.LoadByteWritesLiteral : Prop :=
  ∀ (x : Nibble) (nn : Byte) (s : State), ∃ t, exec (.ldByte x nn) s = .next t ∧ getV t x = nn ∧
    regsKeptBut [x] s t ∧ t.pc = s.pc + 2 ∧ keptBut [.regs, .pc] s t

/-- 42_alu.md R141: the sum mod 256 and no flag: with `x != 15` VF is kept, with `x = 15` VF is the sum. -/
def Obligations.AddByteWrapsWithoutFlag : Prop :=
  ∀ (x : Nibble) (nn : Byte) (s : State), ∃ t, exec (.addByte x nn) s = .next t ∧
    (getV t x).toNat = ((getV s x).toNat + nn.toNat) % 256 ∧
    regsKeptBut [x] s t ∧ t.pc = s.pc + 2 ∧ keptBut [.regs, .pc] s t

/-- 42_alu.md R142. -/
def Obligations.CopyRegister : Prop :=
  ∀ (x y : Nibble) (s : State), ∃ t, exec (.ldReg x y) s = .next t ∧ getV t x = getV s y ∧
    regsKeptBut [x] s t ∧ t.pc = s.pc + 2 ∧ keptBut [.regs, .pc] s t

/-- 42_alu.md R143, R144, R145, bit by bit. That VF is untouched (but as `V[x]`) is the spec's own decision D6 (log 4). -/
def Obligations.LogicIsBitwiseWithoutFlag : Prop :=
  ∀ (x y : Nibble) (s : State), ∃ t u w,
    exec (.orReg x y) s = .next t ∧ exec (.andReg x y) s = .next u ∧ exec (.xorReg x y) s = .next w ∧
    (∀ k, k < 8 →
      (getV t x).getLsbD k = ((getV s x).getLsbD k || (getV s y).getLsbD k) ∧
      (getV u x).getLsbD k = ((getV s x).getLsbD k && (getV s y).getLsbD k) ∧
      (getV w x).getLsbD k = ((getV s x).getLsbD k != (getV s y).getLsbD k)) ∧
    regsKeptBut [x] s t ∧ regsKeptBut [x] s u ∧ regsKeptBut [x] s w ∧
    t.pc = s.pc + 2 ∧ u.pc = s.pc + 2 ∧ w.pc = s.pc + 2 ∧
    keptBut [.regs, .pc] s t ∧ keptBut [.regs, .pc] s u ∧ keptBut [.regs, .pc] s w

/-- 42_alu.md R146: the sum mod 256 in `V[x]` (lost where `x = 15`) and the carry of the old values in VF. -/
def Obligations.AddSetsCarry : Prop :=
  ∀ (x y : Nibble) (s : State), ∃ t, exec (.addReg x y) s = .next t ∧
    (x ≠ 15 → (getV t x).toNat = ((getV s x).toNat + (getV s y).toNat) % 256) ∧
    getV t 15 = (if (getV s x).toNat + (getV s y).toNat > 255 then 1 else 0) ∧
    regsKeptBut [x, 15] s t ∧ t.pc = s.pc + 2 ∧ keptBut [.regs, .pc] s t

/-- 42_alu.md R147: the difference mod 256 in 0..255 and no-borrow in VF. -/
def Obligations.SubtractSetsNoBorrow : Prop :=
  ∀ (x y : Nibble) (s : State), ∃ t, exec (.subReg x y) s = .next t ∧
    (x ≠ 15 → ((getV t x).toNat : Int) = (((getV s x).toNat : Int) - (getV s y).toNat) % 256) ∧
    getV t 15 = (if (getV s x).toNat ≥ (getV s y).toNat then 1 else 0) ∧
    regsKeptBut [x, 15] s t ∧ t.pc = s.pc + 2 ∧ keptBut [.regs, .pc] s t

/-- 42_alu.md R149: `V[y] - V[x]`. -/
def Obligations.ReverseSubtractSetsNoBorrow : Prop :=
  ∀ (x y : Nibble) (s : State), ∃ t, exec (.subnReg x y) s = .next t ∧
    (x ≠ 15 → ((getV t x).toNat : Int) = (((getV s y).toNat : Int) - (getV s x).toNat) % 256) ∧
    getV t 15 = (if (getV s y).toNat ≥ (getV s x).toNat then 1 else 0) ∧
    regsKeptBut [x, 15] s t ∧ t.pc = s.pc + 2 ∧ keptBut [.regs, .pc] s t

/-- 42_alu.md R148, R150, R152: both shifts, by one, of `V[x]` in place, for every `y`. That the flag is what remains where
`x = 15` is the spec's own decision D5 (log 4). -/
def Obligations.ShiftsMoveOneBitIntoFlag : Prop :=
  ∀ (x y : Nibble) (s : State), ∃ t u, exec (.shr x y) s = .next t ∧ exec (.shl x y) s = .next u ∧
    (x ≠ 15 → (getV t x).toNat = (getV s x).toNat / 2 ∧ (getV u x).toNat = (getV s x).toNat * 2 % 256) ∧
    (getV t 15).toNat = (getV s x).toNat % 2 ∧ (getV u 15).toNat = (getV s x).toNat / 128 ∧
    regsKeptBut [x, 15] s t ∧ regsKeptBut [x, 15] s u ∧ t.pc = s.pc + 2 ∧ u.pc = s.pc + 2 ∧
    keptBut [.regs, .pc] s t ∧ keptBut [.regs, .pc] s u

/-- 42_alu.md R151: bits clear in `nn` are clear in the result, whatever the draw, and every byte with them clear is the result of
some draw. The draw is the free value of log 2 (the spec's D12), used up by the instruction. -/
def Obligations.RandomByteIsMasked : Prop :=
  ∀ (x : Nibble) (nn : Byte) (s : State),
    (∃ t, exec (.rnd x nn) s = .next t ∧ getV t x &&& ~~~nn = 0 ∧ regsKeptBut [x] s t ∧ t.draws = s.draws + 1 ∧
      t.pc = s.pc + 2 ∧ keptBut [.regs, .pc, .draws] s t) ∧
    (∃ draw, exec (.rnd x nn) s = .next (rndOp draw x nn s)) ∧
    (∀ r : Byte, r &&& ~~~nn = 0 → ∃ draw, getV (rndOp draw x nn s) x = r)

/-- 42_alu.md R143, R152, 43_index_memory.md R161, R164: what the values of the parameters that are not the default do. The parameters
and their defaults are the spec's own decisions D5 to D8 (log 4); `exec` uses the defaults. -/
def Obligations.OtherDialectValues : Prop :=
  ∀ (d : Dialect) (x y : Nibble) (r : Byte) (s : State),
    (d.logicWritesVf = .clearTo0 → getV (logicOp d x r s) 15 = 0 ∧ (x ≠ 15 → getV (logicOp d x r s) x = r)) ∧
    (d.vfWriteOrder = .literalRows → x ≠ 15 →
      exec (.shr x y) s = .next (shrOp d x s) ∧ exec (.shl x y) s = .next (shlOp d x s)) ∧
    (d.vfWriteOrder = .literalRows →
      getV (shrOp d 15 s) 15 = 0 ∧ (getV (shlOp d 15 s) 15).toNat = (getV s 15).toNat / 128 * 2 % 256) ∧
    (d.fx1eWritesVf = .overflow →
      (addIndexOp d x s).i.toNat = (s.i.toNat + (getV s x).toNat) % 4096 ∧
      getV (addIndexOp d x s) 15 = if s.i.toNat + (getV s x).toNat > 0xFFF then 1 else 0) ∧
    (d.loadStoreIncI = .xPlus1 →
      (storeRegsOp d x s).i.toNat = (s.i.toNat + x.toNat + 1) % 4096 ∧
      (loadRegsOp d x s).i.toNat = (s.i.toNat + x.toNat + 1) % 4096)

/-! ### Index register and memory -/

/-- 20_memory.md R61, R74: every address is reduced mod 4096; a read gives the last byte written at its address; a write changes
nothing else. -/
def Obligations.MemoryWrapsAndHolds : Prop :=
  ∀ (s : State) (a k : Nat) (b : Byte),
    memRead s a = memRead s (a % 4096) ∧
    (k % 4096 = a % 4096 → memRead (memWrite s a b) k = b) ∧
    (k % 4096 ≠ a % 4096 → memRead (memWrite s a b) k = memRead s k) ∧
    keptBut [.mem] s (memWrite s a b)

/-- 43_index_memory.md R160. -/
def Obligations.LoadIndexWritesLiteral : Prop :=
  ∀ (nnn : Addr) (s : State), ∃ t, exec (.ldI nnn) s = .next t ∧ t.i.toNat = nnn.toNat ∧
    t.pc = s.pc + 2 ∧ keptBut [.index, .pc] s t

/-- 43_index_memory.md R161: 12-bit wrap. That VF is untouched is the spec's own decision D7 (log 4). -/
def Obligations.AddIndexWrapsTwelveBits : Prop :=
  ∀ (x : Nibble) (s : State), ∃ t, exec (.addI x) s = .next t ∧
    t.i.toNat = (s.i.toNat + (getV s x).toNat) % 4096 ∧ t.pc = s.pc + 2 ∧ keptBut [.index, .pc] s t

/-- 43_index_memory.md R162. -/
def Obligations.GlyphAddressOfLowNibble : Prop :=
  ∀ (x : Nibble) (s : State), ∃ t, exec (.ldF x) s = .next t ∧
    t.i.toNat = 0x050 + 5 * ((getV s x).toNat % 16) ∧ t.pc = s.pc + 2 ∧ keptBut [.index, .pc] s t

/-- 43_index_memory.md R163: hundreds, tens and ones, each address reduced mod 4096; every other byte is kept. -/
def Obligations.BcdStoresThreeDigits : Prop :=
  ∀ (x : Nibble) (s : State), ∃ t, exec (.ldB x) s = .next t ∧
    (memRead t (indexAddr s 0)).toNat = (getV s x).toNat / 100 ∧
    (memRead t (indexAddr s 1)).toNat = (getV s x).toNat / 10 % 10 ∧
    (memRead t (indexAddr s 2)).toNat = (getV s x).toNat % 10 ∧
    (∀ k, indexAddr s k = (s.i.toNat + k) % 4096) ∧
    memKeptOutside 3 s t ∧ t.pc = s.pc + 2 ∧ keptBut [.mem, .pc] s t

/-- 43_index_memory.md R164: V0 to Vx, both included, at I upward, addresses mod 4096; every other byte is kept. That I is
unchanged is the spec's own decision D8 (log 4). -/
def Obligations.StoreRegistersAtIndex : Prop :=
  ∀ (x : Nibble) (s : State), ∃ t, exec (.ldMemVx x) s = .next t ∧
    (∀ k : Nibble, k.toNat ≤ x.toNat → memRead t ((s.i.toNat + k.toNat) % 4096) = getV s k) ∧
    memKeptOutside (x.toNat + 1) s t ∧ t.pc = s.pc + 2 ∧ keptBut [.mem, .pc] s t

/-- 43_index_memory.md R165: likewise from memory; registers above `x` are kept. That I is unchanged is D8 (log 4). -/
def Obligations.LoadRegistersFromIndex : Prop :=
  ∀ (x : Nibble) (s : State), ∃ t, exec (.ldVxMem x) s = .next t ∧
    (∀ k : Nibble, k.toNat ≤ x.toNat → getV t k = memRead s ((s.i.toNat + k.toNat) % 4096)) ∧
    (∀ k : Nibble, x.toNat < k.toNat → getV t k = getV s k) ∧
    t.pc = s.pc + 2 ∧ keptBut [.regs, .pc] s t

/-- R165: `Fx65` after `Fx55` with the same I and `x` restores the registers, whatever has been done to them between. That
`Fx55` leaves I where it was, so that the I it leaves is the same I, is the spec's own decision D8 (log 4); with
`LOADSTORE_INC_I = x_plus_1` the statement would not hold. -/
def Obligations.LoadAfterStoreRestores : Prop :=
  ∀ (x : Nibble) (s : State), ∃ t, exec (.ldMemVx x) s = .next t ∧
    ∀ u : State, kept .index t u → kept .mem t u →
      ∃ w, exec (.ldVxMem x) u = .next w ∧ ∀ k : Nibble, k.toNat ≤ x.toNat → getV w k = getV s k

/-- 20_memory.md R70: a store over the next instruction is what the next fetch reads. -/
def Obligations.StoreIsSeenByNextFetch : Prop :=
  ∀ (x : Nibble) (s : State), 1 ≤ x.toNat → s.i = s.pc + 2 → ∃ t, exec (.ldMemVx x) s = .next t ∧
    (fetchWord t).toNat = (getV s 0).toNat * 256 + (getV s 1).toNat

/-! ### Display -/

/-- 44_display.md R170. -/
def Obligations.ClearTurnsEveryPixelOff : Prop :=
  ∀ s : State, ∃ t, exec .cls s = .next t ∧ (∀ r c, pixel t.fb r c = false) ∧ t.pc = s.pc + 2 ∧ keptBut [.fb, .pc] s t

/-- 44_display.md R171, R172, R173: the two loops of the draw come to this: every pixel is XORed with the sprite bit that falls on
it, and VF is 1 exactly when a set bit fell on an on pixel. That bit 7 of a byte is the leftmost pixel is the spec's own
inference N3 (log 18). -/
def Obligations.DrawXorsSpriteAndFlagsCollision : Prop :=
  ∀ (x y n : Nibble) (s : State), ∃ t, exec (.drw x y n) s = .next t ∧
    (∀ r c, pixel t.fb r c = (pixel s.fb r c != spriteOn s (getV s x) (getV s y) n r c)) ∧
    (getV t 15 = 1 ↔ ∃ r c, pixel s.fb r c = true ∧ spriteOn s (getV s x) (getV s y) n r c = true) ∧
    (getV t 15 = 0 ∨ getV t 15 = 1) ∧
    regsKeptBut [15] s t ∧ t.pc = s.pc + 2 ∧ keptBut [.regs, .fb, .pc] s t

/-- 44_display.md R174: two draws of the same sprite restore the display; the second collides exactly when some set bit covered a
pixel that was off, and at least one of the two collides when the sprite has a set bit. Which pixel a set bit falls on is
`spriteOn`, with bit 7 leftmost: the spec's own inference N3 (log 18). -/
def Obligations.DrawTwiceRestoresDisplay : Prop :=
  ∀ (x y n : Nibble) (s : State), x ≠ 15 → y ≠ 15 →
    ∃ t u, exec (.drw x y n) s = .next t ∧ exec (.drw x y n) t = .next u ∧
      (∀ r c, pixel u.fb r c = pixel s.fb r c) ∧
      (getV u 15 = 1 ↔ ∃ r c, pixel s.fb r c = false ∧ spriteOn s (getV s x) (getV s y) n r c = true) ∧
      ((∃ r c, spriteOn s (getV s x) (getV s y) n r c = true) → getV t 15 = 1 ∨ getV u 15 = 1)

/-- 44_display.md R174 (c), R171: a draw whose bytes are all 0, or of no rows, changes no pixel and gives `VF = 0`. -/
def Obligations.BlankDrawChangesNoPixel : Prop :=
  ∀ (x y n : Nibble) (s : State), (∀ k, k < n.toNat → memRead s (s.i.toNat + k) = 0) →
    ∃ t, exec (.drw x y n) s = .next t ∧ (∀ r c, pixel t.fb r c = pixel s.fb r c) ∧ getV t 15 = 0

/-! ### Keypad and timers -/

/-- 45_keypad.md R182, R184: with no key down the state is left as it is; with a key down `V[x]` gets the number of the lowest one.
That the wait is by re-execution and the key the lowest is the spec's own decision D10, D11 (log 8, 9). -/
def Obligations.KeyWaitTakesLowestKey : Prop :=
  ∀ (x : Nibble) (s : State),
    ((∀ k, keyDown s k = false) → exec (.ldVxK x) s = .next s) ∧
    (∀ k : Nibble, keyDown s k = true → (∀ j : Nibble, j.toNat < k.toNat → keyDown s j = false) →
      ∃ t, exec (.ldVxK x) s = .next t ∧ (getV t x).toNat = k.toNat ∧ regsKeptBut [x] s t ∧ t.pc = s.pc + 2 ∧
        keptBut [.regs, .pc] s t)

/-- 45_keypad.md R185: KeySet changes one key and nothing else. That it does nothing on a frozen core is D23 (log 10). -/
def Obligations.KeySetWritesOneKey : Prop :=
  ∀ (s : State) (k : Nibble) (b : Bool) (es : List Event), s.events = .keySet k b :: es →
    ∃ t, step s = .next t ∧ (frozen s = false → keyDown t k = b) ∧ (frozen s = true → keyDown t k = keyDown s k) ∧
      (∀ j, j ≠ k → keyDown t j = keyDown s j) ∧ t.events = es ∧ keptBut [.keys, .events] s t

/-- 46_timers.md R190, R191, R192: the three timer accesses; SOUND is true exactly while ST is not 0. -/
def Obligations.TimerAccess : Prop :=
  ∀ (x : Nibble) (s : State), ∃ t u w,
    exec (.ldVxDT x) s = .next t ∧ exec (.ldDTVx x) s = .next u ∧ exec (.ldSTVx x) s = .next w ∧
    getV t x = s.dt ∧ regsKeptBut [x] s t ∧ t.pc = s.pc + 2 ∧ keptBut [.regs, .pc] s t ∧
    u.dt = getV s x ∧ u.pc = s.pc + 2 ∧ keptBut [.dt, .pc] s u ∧
    w.st = getV s x ∧ w.pc = s.pc + 2 ∧ keptBut [.st, .pc] s w ∧ (∀ z : State, sound z = true ↔ z.st ≠ 0)

/-- 60_exceptions.md R210: one tick takes one from each timer that is above 0. That it does nothing on a frozen core is D23 (log 10). -/
def Obligations.TickDecrementsBothTimers : Prop :=
  ∀ (s : State) (es : List Event), s.events = .tick :: es →
    ∃ t, step s = .next t ∧ t.events = es ∧ keptBut [.dt, .st, .events] s t ∧
      (frozen s = false → t.dt.toNat = s.dt.toNat - 1 ∧ t.st.toNat = s.st.toNat - 1) ∧
      (frozen s = true → t.dt = s.dt ∧ t.st = s.st)

/-- R210 (95_test_vectors.md S7): `n` ticks take `n` from each timer and stop at 0, however large `n` is. -/
def Obligations.TicksRunTimersDownToZero : Prop :=
  ∀ (n : Nat) (s : State) (es : List Event), frozen s = false → s.events = List.replicate n .tick ++ es →
    ∃ t, Host.Core.run Sys2Proof.core n s = .next t ∧ t.dt.toNat = s.dt.toNat - n ∧ t.st.toNat = s.st.toNat - n ∧
      t.events = es ∧ keptBut [.dt, .st, .events] s t

/-! ### Reset and loading -/

/-- 10_state.md R35, 70_reset_and_hazards.md R230: the state after Reset, and a Reset event gives it from any state. That Reset may
come at any time, to a running core included, is the spec's own decision D16 (log 13). The font bytes are the PRESUMED default
of log 3 and enter only as `font`; the fault record's values are D13 (log 10); the three fields of the
model's own are log 1, 2 and 11. -/
def Obligations.ResetEstablishesInitialState : Prop :=
  (∀ r, getV State.reset r = 0) ∧ State.reset.i = 0 ∧ State.reset.pc = 0x0200 ∧ State.reset.dt = 0 ∧ State.reset.st = 0 ∧
  (∀ k, k < 16 → State.reset.stack[k]? = some 0) ∧ State.reset.sp.val = 0 ∧
  (∀ a, a < 4096 → ¬(0x050 ≤ a ∧ a < 0x0A0) → memRead State.reset a = 0) ∧
  (∀ k, k < 80 → font[k]? = some (memRead State.reset (0x050 + k))) ∧
  (∀ r c, pixel State.reset.fb r c = false) ∧ (∀ k, keyDown State.reset k = false) ∧
  State.reset.fault = .none ∧ State.reset.faultOp = 0 ∧ State.reset.faultPc = 0 ∧
  ∀ (s : State) (es : List Event), s.events = .reset :: es →
    ∃ t, step s = .next t ∧ t.events = es ∧ t.draws = s.draws ∧ keptBut [.events, .draws] State.reset t

/-- 20_memory.md R72: a load inside memory stores its bytes verbatim and nothing else; one that would pass 4096 is refused whole,
memory unchanged and no fault set. The report is a field of the model's own, and only a core that is not frozen loads (log 11). -/
def Obligations.LoadIsWholeOrRefused : Prop :=
  ∀ (s : State) (start : Nat) (bytes : List Byte) (es : List Event),
    frozen s = false → start < 4096 → s.events = .load start bytes :: es →
    ∃ t, step s = .next t ∧ t.events = es ∧
      (start + bytes.length ≤ 4096 →
        (∀ j, j < bytes.length → bytes[j]? = some (memRead t (start + j))) ∧
        (∀ a, a < 4096 → a < start ∨ start + bytes.length ≤ a → memRead t a = memRead s a) ∧
        t.loadError = none ∧ keptBut [.mem, .events, .loadError] s t) ∧
      (4096 < start + bytes.length → t.loadError = some .romTooLarge ∧ keptBut [.events, .loadError] s t)

/-! ### Whole-machine rules -/

/-- 10_state.md R41 and log 23: I stays below 4096 and memory keeps its canonical form, through every step of every kind. -/
def Obligations.InvariantKeptByEveryStep : Prop :=
  ∀ s t : State, Safety.inv s = true → step s = .next t → Safety.inv t = true

/-- 60_exceptions.md R201 to R205, R213: a fault record, once written, always names the word at PC and the error that word raises in
that state; every step keeps this. The record's shape is D13, its persistence D23 (log 10). -/
def Obligations.FaultRecordStaysExplained : Prop :=
  ∀ s t : State, Safety.faultExplained s = true → step s = .next t → Safety.faultExplained t = true

/-- R35: both invariants hold right after reset. -/
def Obligations.InvariantsHoldAtReset : Prop :=
  Safety.inv State.reset = true ∧ Safety.faultExplained State.reset = true

/-- 10_state.md R40, R21, 60_exceptions.md R208: over all instructions, who may write what: the display, memory, the stack, I, DT,
ST and the draws have only their listed writers; a general register that is not the destination, not VF under a flag-writing
instruction and not in the range of `Fx65` is kept; and no instruction touches the keypad or the host's events. That `8xy1`,
`8xy2`, `8xy3` and `Fx1E` are no writers of VF and `Fx55` and `Fx65` none of I are the spec's own decisions D6, D7 and D8 (log 4,
unsafe: hardware of another dialect writes there). -/
def Obligations.OnlyListedInstructionsWrite : Prop :=
  ∀ (i : Instr) (s t : State), exec i s = .next t →
    (writesDisplay i = false → kept .fb s t) ∧
    (writesMemory i = false → kept .mem s t) ∧
    (writesStack i = false → kept .stack s t ∧ kept .faultRecord s t) ∧
    (writesIndex i = false → kept .index s t) ∧
    ((∀ x, i ≠ .ldDTVx x) → kept .dt s t) ∧
    ((∀ x, i ≠ .ldSTVx x) → kept .st s t) ∧
    ((∀ x nn, i ≠ .rnd x nn) → kept .draws s t) ∧
    (∀ r, destination i ≠ some r → ¬(writesFlag i = true ∧ r = 15) → loadsFromMemory i r = false → getV t r = getV s r) ∧
    (writesFlag i = true → getV t 15 = 0 ∨ getV t 15 = 1) ∧
    kept .keys s t ∧ kept .events s t ∧ kept .loadError s t
end

