-- ==== Sys2Proof/Laws/Decode.lean ====
section
/-! SUPPORT. Fields of a word put together from its digits, a word put together from its fields, and a word from its bytes
(30_encoding.md R93; 20_memory.md R63). -/

namespace Sys2Proof

/-! ### Fields of an appended word -/

@[simp] theorem fieldT_nnn (t : Nibble) (nnn : Addr) : fieldT (t ++ nnn : Word) = t := by
  simp only [fieldT, BitVec.extractLsb'_append_eq_ite]
  simp

@[simp] theorem fieldNNN_nnn (t : Nibble) (nnn : Addr) : fieldNNN (t ++ nnn : Word) = nnn := by
  simp only [fieldNNN, BitVec.extractLsb'_append_eq_ite]
  simp

@[simp] theorem fieldT_nn (t x : Nibble) (nn : Byte) : fieldT (t ++ x ++ nn : Word) = t := by
  simp only [fieldT, BitVec.extractLsb'_append_eq_ite]
  simp

@[simp] theorem fieldX_nn (t x : Nibble) (nn : Byte) : fieldX (t ++ x ++ nn : Word) = x := by
  simp only [fieldX, BitVec.extractLsb'_append_eq_ite]
  simp

@[simp] theorem fieldNN_nn (t x : Nibble) (nn : Byte) : fieldNN (t ++ x ++ nn : Word) = nn := by
  simp only [fieldNN, BitVec.extractLsb'_append_eq_ite]
  simp

@[simp] theorem fieldT_xyn (t x y n : Nibble) : fieldT (t ++ x ++ y ++ n : Word) = t := by
  simp only [fieldT, BitVec.extractLsb'_append_eq_ite]
  simp

@[simp] theorem fieldX_xyn (t x y n : Nibble) : fieldX (t ++ x ++ y ++ n : Word) = x := by
  simp only [fieldX, BitVec.extractLsb'_append_eq_ite]
  simp

@[simp] theorem fieldY_xyn (t x y n : Nibble) : fieldY (t ++ x ++ y ++ n : Word) = y := by
  simp only [fieldY, BitVec.extractLsb'_append_eq_ite]
  simp

@[simp] theorem fieldN_xyn (t x y n : Nibble) : fieldN (t ++ x ++ y ++ n : Word) = n := by
  simp only [fieldN, BitVec.extractLsb'_append_eq_ite]
  simp

/-! ### A word from its fields and from its bytes -/

theorem append_fields_xyn (op : Word) : (fieldT op ++ fieldX op ++ fieldY op ++ fieldN op : Word) = op := by
  apply BitVec.eq_of_getLsbD_eq
  intro k hk
  simp only [BitVec.getLsbD_append, fieldT, fieldX, fieldY, fieldN, BitVec.getLsbD_extractLsb']
  interval_cases k <;> simp

theorem append_fields_nn (op : Word) : (fieldT op ++ fieldX op ++ fieldNN op : Word) = op := by
  apply BitVec.eq_of_getLsbD_eq
  intro k hk
  simp only [BitVec.getLsbD_append, fieldT, fieldX, fieldNN, BitVec.getLsbD_extractLsb']
  interval_cases k <;> simp

theorem append_fields_nnn (op : Word) : (fieldT op ++ fieldNNN op : Word) = op := by
  apply BitVec.eq_of_getLsbD_eq
  intro k hk
  simp only [BitVec.getLsbD_append, fieldT, fieldNNN, BitVec.getLsbD_extractLsb']
  interval_cases k <;> simp

/-- A word laid out as its two bytes and read back is the word. -/
@[simp] theorem wordOfBytes_high_low (op : Word) : wordOfBytes (highByte op) (lowByte op) = op := by
  apply BitVec.eq_of_getLsbD_eq
  intro k hk
  simp only [wordOfBytes, highByte, lowByte, BitVec.getLsbD_append, BitVec.getLsbD_extractLsb']
  interval_cases k <;> simp

/-- The number a big-endian pair of bytes spells (20_memory.md R63). -/
theorem toNat_wordOfBytes (hi lo : Byte) : (wordOfBytes hi lo).toNat = hi.toNat * 256 + lo.toNat := by
  simp only [wordOfBytes, BitVec.toNat_append]
  rw [← Nat.shiftLeft_add_eq_or_of_lt lo.isLt, Nat.shiftLeft_eq]

/-- Every instruction is well formed (30_encoding.md R96, R103). -/
@[simp] theorem instr_wellFormed (i : Instr) : i.wellFormed = true := rfl

end Sys2Proof
end

