-- ==== Sys2Proof/Laws/State.lean ====
section
/-! SUPPORT. What each update of the state leaves in each field, what registers and memory read as after it, all by computation. -/

namespace Sys2Proof.Machine

variable (s : State)

/-! ### setV -/

@[simp] theorem setV_i (x : Nibble) (b : Byte) : (setV s x b).i = s.i := rfl
@[simp] theorem setV_pc (x : Nibble) (b : Byte) : (setV s x b).pc = s.pc := rfl
@[simp] theorem setV_dt (x : Nibble) (b : Byte) : (setV s x b).dt = s.dt := rfl
@[simp] theorem setV_st (x : Nibble) (b : Byte) : (setV s x b).st = s.st := rfl
@[simp] theorem setV_stack (x : Nibble) (b : Byte) : (setV s x b).stack = s.stack := rfl
@[simp] theorem setV_sp (x : Nibble) (b : Byte) : (setV s x b).sp = s.sp := rfl
@[simp] theorem setV_mem (x : Nibble) (b : Byte) : (setV s x b).mem = s.mem := rfl
@[simp] theorem setV_fb (x : Nibble) (b : Byte) : (setV s x b).fb = s.fb := rfl
@[simp] theorem setV_key (x : Nibble) (b : Byte) : (setV s x b).key = s.key := rfl
@[simp] theorem setV_fault (x : Nibble) (b : Byte) : (setV s x b).fault = s.fault := rfl
@[simp] theorem setV_faultOp (x : Nibble) (b : Byte) : (setV s x b).faultOp = s.faultOp := rfl
@[simp] theorem setV_faultPc (x : Nibble) (b : Byte) : (setV s x b).faultPc = s.faultPc := rfl
@[simp] theorem setV_draws (x : Nibble) (b : Byte) : (setV s x b).draws = s.draws := rfl
@[simp] theorem setV_events (x : Nibble) (b : Byte) : (setV s x b).events = s.events := rfl
@[simp] theorem setV_loadError (x : Nibble) (b : Byte) : (setV s x b).loadError = s.loadError := rfl
@[simp] theorem memRead_setV (x : Nibble) (b : Byte) (m : Nat) : memRead (setV s x b) m = memRead s m := rfl
@[simp] theorem keyDown_setV (x : Nibble) (b : Byte) (k : Nibble) : keyDown (setV s x b) k = keyDown s k := rfl

/-! ### setI -/

@[simp] theorem setI_v (a : Word) : (setI s a).v = s.v := rfl
@[simp] theorem setI_pc (a : Word) : (setI s a).pc = s.pc := rfl
@[simp] theorem setI_dt (a : Word) : (setI s a).dt = s.dt := rfl
@[simp] theorem setI_st (a : Word) : (setI s a).st = s.st := rfl
@[simp] theorem setI_stack (a : Word) : (setI s a).stack = s.stack := rfl
@[simp] theorem setI_sp (a : Word) : (setI s a).sp = s.sp := rfl
@[simp] theorem setI_mem (a : Word) : (setI s a).mem = s.mem := rfl
@[simp] theorem setI_fb (a : Word) : (setI s a).fb = s.fb := rfl
@[simp] theorem setI_key (a : Word) : (setI s a).key = s.key := rfl
@[simp] theorem setI_fault (a : Word) : (setI s a).fault = s.fault := rfl
@[simp] theorem setI_faultOp (a : Word) : (setI s a).faultOp = s.faultOp := rfl
@[simp] theorem setI_faultPc (a : Word) : (setI s a).faultPc = s.faultPc := rfl
@[simp] theorem setI_draws (a : Word) : (setI s a).draws = s.draws := rfl
@[simp] theorem setI_events (a : Word) : (setI s a).events = s.events := rfl
@[simp] theorem setI_loadError (a : Word) : (setI s a).loadError = s.loadError := rfl
@[simp] theorem setI_i (a : Word) : (setI s a).i = a := rfl
@[simp] theorem getV_setI (a : Word) (r : Nibble) : getV (setI s a) r = getV s r := rfl
@[simp] theorem memRead_setI (a : Word) (m : Nat) : memRead (setI s a) m = memRead s m := rfl
@[simp] theorem keyDown_setI (a : Word) (k : Nibble) : keyDown (setI s a) k = keyDown s k := rfl

/-! ### setPC -/

@[simp] theorem setPC_v (a : Word) : (setPC s a).v = s.v := rfl
@[simp] theorem setPC_i (a : Word) : (setPC s a).i = s.i := rfl
@[simp] theorem setPC_dt (a : Word) : (setPC s a).dt = s.dt := rfl
@[simp] theorem setPC_st (a : Word) : (setPC s a).st = s.st := rfl
@[simp] theorem setPC_stack (a : Word) : (setPC s a).stack = s.stack := rfl
@[simp] theorem setPC_sp (a : Word) : (setPC s a).sp = s.sp := rfl
@[simp] theorem setPC_mem (a : Word) : (setPC s a).mem = s.mem := rfl
@[simp] theorem setPC_fb (a : Word) : (setPC s a).fb = s.fb := rfl
@[simp] theorem setPC_key (a : Word) : (setPC s a).key = s.key := rfl
@[simp] theorem setPC_fault (a : Word) : (setPC s a).fault = s.fault := rfl
@[simp] theorem setPC_faultOp (a : Word) : (setPC s a).faultOp = s.faultOp := rfl
@[simp] theorem setPC_faultPc (a : Word) : (setPC s a).faultPc = s.faultPc := rfl
@[simp] theorem setPC_draws (a : Word) : (setPC s a).draws = s.draws := rfl
@[simp] theorem setPC_events (a : Word) : (setPC s a).events = s.events := rfl
@[simp] theorem setPC_loadError (a : Word) : (setPC s a).loadError = s.loadError := rfl
@[simp] theorem setPC_pc (a : Word) : (setPC s a).pc = a := rfl
@[simp] theorem getV_setPC (a : Word) (r : Nibble) : getV (setPC s a) r = getV s r := rfl
@[simp] theorem memRead_setPC (a : Word) (m : Nat) : memRead (setPC s a) m = memRead s m := rfl
@[simp] theorem keyDown_setPC (a : Word) (k : Nibble) : keyDown (setPC s a) k = keyDown s k := rfl

/-! ### setDT -/

@[simp] theorem setDT_v (b : Byte) : (setDT s b).v = s.v := rfl
@[simp] theorem setDT_i (b : Byte) : (setDT s b).i = s.i := rfl
@[simp] theorem setDT_pc (b : Byte) : (setDT s b).pc = s.pc := rfl
@[simp] theorem setDT_st (b : Byte) : (setDT s b).st = s.st := rfl
@[simp] theorem setDT_stack (b : Byte) : (setDT s b).stack = s.stack := rfl
@[simp] theorem setDT_sp (b : Byte) : (setDT s b).sp = s.sp := rfl
@[simp] theorem setDT_mem (b : Byte) : (setDT s b).mem = s.mem := rfl
@[simp] theorem setDT_fb (b : Byte) : (setDT s b).fb = s.fb := rfl
@[simp] theorem setDT_key (b : Byte) : (setDT s b).key = s.key := rfl
@[simp] theorem setDT_fault (b : Byte) : (setDT s b).fault = s.fault := rfl
@[simp] theorem setDT_faultOp (b : Byte) : (setDT s b).faultOp = s.faultOp := rfl
@[simp] theorem setDT_faultPc (b : Byte) : (setDT s b).faultPc = s.faultPc := rfl
@[simp] theorem setDT_draws (b : Byte) : (setDT s b).draws = s.draws := rfl
@[simp] theorem setDT_events (b : Byte) : (setDT s b).events = s.events := rfl
@[simp] theorem setDT_loadError (b : Byte) : (setDT s b).loadError = s.loadError := rfl
@[simp] theorem setDT_dt (b : Byte) : (setDT s b).dt = b := rfl
@[simp] theorem getV_setDT (b : Byte) (r : Nibble) : getV (setDT s b) r = getV s r := rfl
@[simp] theorem memRead_setDT (b : Byte) (m : Nat) : memRead (setDT s b) m = memRead s m := rfl
@[simp] theorem keyDown_setDT (b : Byte) (k : Nibble) : keyDown (setDT s b) k = keyDown s k := rfl

/-! ### setST -/

@[simp] theorem setST_v (b : Byte) : (setST s b).v = s.v := rfl
@[simp] theorem setST_i (b : Byte) : (setST s b).i = s.i := rfl
@[simp] theorem setST_pc (b : Byte) : (setST s b).pc = s.pc := rfl
@[simp] theorem setST_dt (b : Byte) : (setST s b).dt = s.dt := rfl
@[simp] theorem setST_stack (b : Byte) : (setST s b).stack = s.stack := rfl
@[simp] theorem setST_sp (b : Byte) : (setST s b).sp = s.sp := rfl
@[simp] theorem setST_mem (b : Byte) : (setST s b).mem = s.mem := rfl
@[simp] theorem setST_fb (b : Byte) : (setST s b).fb = s.fb := rfl
@[simp] theorem setST_key (b : Byte) : (setST s b).key = s.key := rfl
@[simp] theorem setST_fault (b : Byte) : (setST s b).fault = s.fault := rfl
@[simp] theorem setST_faultOp (b : Byte) : (setST s b).faultOp = s.faultOp := rfl
@[simp] theorem setST_faultPc (b : Byte) : (setST s b).faultPc = s.faultPc := rfl
@[simp] theorem setST_draws (b : Byte) : (setST s b).draws = s.draws := rfl
@[simp] theorem setST_events (b : Byte) : (setST s b).events = s.events := rfl
@[simp] theorem setST_loadError (b : Byte) : (setST s b).loadError = s.loadError := rfl
@[simp] theorem setST_st (b : Byte) : (setST s b).st = b := rfl
@[simp] theorem getV_setST (b : Byte) (r : Nibble) : getV (setST s b) r = getV s r := rfl
@[simp] theorem memRead_setST (b : Byte) (m : Nat) : memRead (setST s b) m = memRead s m := rfl
@[simp] theorem keyDown_setST (b : Byte) (k : Nibble) : keyDown (setST s b) k = keyDown s k := rfl

/-! ### setFB -/

@[simp] theorem setFB_v (f : Framebuffer) : (setFB s f).v = s.v := rfl
@[simp] theorem setFB_i (f : Framebuffer) : (setFB s f).i = s.i := rfl
@[simp] theorem setFB_pc (f : Framebuffer) : (setFB s f).pc = s.pc := rfl
@[simp] theorem setFB_dt (f : Framebuffer) : (setFB s f).dt = s.dt := rfl
@[simp] theorem setFB_st (f : Framebuffer) : (setFB s f).st = s.st := rfl
@[simp] theorem setFB_stack (f : Framebuffer) : (setFB s f).stack = s.stack := rfl
@[simp] theorem setFB_sp (f : Framebuffer) : (setFB s f).sp = s.sp := rfl
@[simp] theorem setFB_mem (f : Framebuffer) : (setFB s f).mem = s.mem := rfl
@[simp] theorem setFB_key (f : Framebuffer) : (setFB s f).key = s.key := rfl
@[simp] theorem setFB_fault (f : Framebuffer) : (setFB s f).fault = s.fault := rfl
@[simp] theorem setFB_faultOp (f : Framebuffer) : (setFB s f).faultOp = s.faultOp := rfl
@[simp] theorem setFB_faultPc (f : Framebuffer) : (setFB s f).faultPc = s.faultPc := rfl
@[simp] theorem setFB_draws (f : Framebuffer) : (setFB s f).draws = s.draws := rfl
@[simp] theorem setFB_events (f : Framebuffer) : (setFB s f).events = s.events := rfl
@[simp] theorem setFB_loadError (f : Framebuffer) : (setFB s f).loadError = s.loadError := rfl
@[simp] theorem setFB_fb (f : Framebuffer) : (setFB s f).fb = f := rfl
@[simp] theorem getV_setFB (f : Framebuffer) (r : Nibble) : getV (setFB s f) r = getV s r := rfl
@[simp] theorem memRead_setFB (f : Framebuffer) (m : Nat) : memRead (setFB s f) m = memRead s m := rfl
@[simp] theorem keyDown_setFB (f : Framebuffer) (k : Nibble) : keyDown (setFB s f) k = keyDown s k := rfl

/-! ### advance -/

@[simp] theorem advance_v : (advance s).v = s.v := rfl
@[simp] theorem advance_i : (advance s).i = s.i := rfl
@[simp] theorem advance_dt : (advance s).dt = s.dt := rfl
@[simp] theorem advance_st : (advance s).st = s.st := rfl
@[simp] theorem advance_stack : (advance s).stack = s.stack := rfl
@[simp] theorem advance_sp : (advance s).sp = s.sp := rfl
@[simp] theorem advance_mem : (advance s).mem = s.mem := rfl
@[simp] theorem advance_fb : (advance s).fb = s.fb := rfl
@[simp] theorem advance_key : (advance s).key = s.key := rfl
@[simp] theorem advance_fault : (advance s).fault = s.fault := rfl
@[simp] theorem advance_faultOp : (advance s).faultOp = s.faultOp := rfl
@[simp] theorem advance_faultPc : (advance s).faultPc = s.faultPc := rfl
@[simp] theorem advance_draws : (advance s).draws = s.draws := rfl
@[simp] theorem advance_events : (advance s).events = s.events := rfl
@[simp] theorem advance_loadError : (advance s).loadError = s.loadError := rfl
@[simp] theorem advance_pc : (advance s).pc = s.pc + 2 := rfl
@[simp] theorem getV_advance (r : Nibble) : getV (advance s) r = getV s r := rfl
@[simp] theorem memRead_advance (m : Nat) : memRead (advance s) m = memRead s m := rfl
@[simp] theorem keyDown_advance (k : Nibble) : keyDown (advance s) k = keyDown s k := rfl

/-! ### skip -/

@[simp] theorem skip_v : (skip s).v = s.v := rfl
@[simp] theorem skip_i : (skip s).i = s.i := rfl
@[simp] theorem skip_dt : (skip s).dt = s.dt := rfl
@[simp] theorem skip_st : (skip s).st = s.st := rfl
@[simp] theorem skip_stack : (skip s).stack = s.stack := rfl
@[simp] theorem skip_sp : (skip s).sp = s.sp := rfl
@[simp] theorem skip_mem : (skip s).mem = s.mem := rfl
@[simp] theorem skip_fb : (skip s).fb = s.fb := rfl
@[simp] theorem skip_key : (skip s).key = s.key := rfl
@[simp] theorem skip_fault : (skip s).fault = s.fault := rfl
@[simp] theorem skip_faultOp : (skip s).faultOp = s.faultOp := rfl
@[simp] theorem skip_faultPc : (skip s).faultPc = s.faultPc := rfl
@[simp] theorem skip_draws : (skip s).draws = s.draws := rfl
@[simp] theorem skip_events : (skip s).events = s.events := rfl
@[simp] theorem skip_loadError : (skip s).loadError = s.loadError := rfl
@[simp] theorem skip_pc : (skip s).pc = s.pc + 2 := rfl
@[simp] theorem getV_skip (r : Nibble) : getV (skip s) r = getV s r := rfl
@[simp] theorem memRead_skip (m : Nat) : memRead (skip s) m = memRead s m := rfl
@[simp] theorem keyDown_skip (k : Nibble) : keyDown (skip s) k = keyDown s k := rfl

/-! ### memWrite -/

@[simp] theorem memWrite_v (a : Nat) (b : Byte) : (memWrite s a b).v = s.v := rfl
@[simp] theorem memWrite_i (a : Nat) (b : Byte) : (memWrite s a b).i = s.i := rfl
@[simp] theorem memWrite_pc (a : Nat) (b : Byte) : (memWrite s a b).pc = s.pc := rfl
@[simp] theorem memWrite_dt (a : Nat) (b : Byte) : (memWrite s a b).dt = s.dt := rfl
@[simp] theorem memWrite_st (a : Nat) (b : Byte) : (memWrite s a b).st = s.st := rfl
@[simp] theorem memWrite_stack (a : Nat) (b : Byte) : (memWrite s a b).stack = s.stack := rfl
@[simp] theorem memWrite_sp (a : Nat) (b : Byte) : (memWrite s a b).sp = s.sp := rfl
@[simp] theorem memWrite_fb (a : Nat) (b : Byte) : (memWrite s a b).fb = s.fb := rfl
@[simp] theorem memWrite_key (a : Nat) (b : Byte) : (memWrite s a b).key = s.key := rfl
@[simp] theorem memWrite_fault (a : Nat) (b : Byte) : (memWrite s a b).fault = s.fault := rfl
@[simp] theorem memWrite_faultOp (a : Nat) (b : Byte) : (memWrite s a b).faultOp = s.faultOp := rfl
@[simp] theorem memWrite_faultPc (a : Nat) (b : Byte) : (memWrite s a b).faultPc = s.faultPc := rfl
@[simp] theorem memWrite_draws (a : Nat) (b : Byte) : (memWrite s a b).draws = s.draws := rfl
@[simp] theorem memWrite_events (a : Nat) (b : Byte) : (memWrite s a b).events = s.events := rfl
@[simp] theorem memWrite_loadError (a : Nat) (b : Byte) : (memWrite s a b).loadError = s.loadError := rfl
@[simp] theorem memWrite_mem (a : Nat) (b : Byte) : (memWrite s a b).mem = memSet s.mem (wrapAddr a) b := rfl
@[simp] theorem getV_memWrite (a : Nat) (b : Byte) (r : Nibble) : getV (memWrite s a b) r = getV s r := rfl
@[simp] theorem keyDown_memWrite (a : Nat) (b : Byte) (k : Nibble) : keyDown (memWrite s a b) k = keyDown s k := rfl

/-! ### raise -/

@[simp] theorem raise_v (e : FaultCode) (op : Word) : (raise s e op).v = s.v := rfl
@[simp] theorem raise_i (e : FaultCode) (op : Word) : (raise s e op).i = s.i := rfl
@[simp] theorem raise_pc (e : FaultCode) (op : Word) : (raise s e op).pc = s.pc := rfl
@[simp] theorem raise_dt (e : FaultCode) (op : Word) : (raise s e op).dt = s.dt := rfl
@[simp] theorem raise_st (e : FaultCode) (op : Word) : (raise s e op).st = s.st := rfl
@[simp] theorem raise_stack (e : FaultCode) (op : Word) : (raise s e op).stack = s.stack := rfl
@[simp] theorem raise_sp (e : FaultCode) (op : Word) : (raise s e op).sp = s.sp := rfl
@[simp] theorem raise_mem (e : FaultCode) (op : Word) : (raise s e op).mem = s.mem := rfl
@[simp] theorem raise_fb (e : FaultCode) (op : Word) : (raise s e op).fb = s.fb := rfl
@[simp] theorem raise_key (e : FaultCode) (op : Word) : (raise s e op).key = s.key := rfl
@[simp] theorem raise_draws (e : FaultCode) (op : Word) : (raise s e op).draws = s.draws := rfl
@[simp] theorem raise_events (e : FaultCode) (op : Word) : (raise s e op).events = s.events := rfl
@[simp] theorem raise_loadError (e : FaultCode) (op : Word) : (raise s e op).loadError = s.loadError := rfl
@[simp] theorem raise_fault (e : FaultCode) (op : Word) : (raise s e op).fault = e := rfl
@[simp] theorem raise_faultOp (e : FaultCode) (op : Word) : (raise s e op).faultOp = op := rfl
@[simp] theorem raise_faultPc (e : FaultCode) (op : Word) : (raise s e op).faultPc = s.pc := rfl
@[simp] theorem getV_raise (e : FaultCode) (op : Word) (r : Nibble) : getV (raise s e op) r = getV s r := rfl
@[simp] theorem memRead_raise (e : FaultCode) (op : Word) (m : Nat) : memRead (raise s e op) m = memRead s m := rfl
@[simp] theorem keyDown_raise (e : FaultCode) (op : Word) (k : Nibble) : keyDown (raise s e op) k = keyDown s k := rfl

/-! ### writeFlag -/

@[simp] theorem writeFlag_i (c : Bool) : (writeFlag s c).i = s.i := rfl
@[simp] theorem writeFlag_pc (c : Bool) : (writeFlag s c).pc = s.pc := rfl
@[simp] theorem writeFlag_dt (c : Bool) : (writeFlag s c).dt = s.dt := rfl
@[simp] theorem writeFlag_st (c : Bool) : (writeFlag s c).st = s.st := rfl
@[simp] theorem writeFlag_stack (c : Bool) : (writeFlag s c).stack = s.stack := rfl
@[simp] theorem writeFlag_sp (c : Bool) : (writeFlag s c).sp = s.sp := rfl
@[simp] theorem writeFlag_mem (c : Bool) : (writeFlag s c).mem = s.mem := rfl
@[simp] theorem writeFlag_fb (c : Bool) : (writeFlag s c).fb = s.fb := rfl
@[simp] theorem writeFlag_key (c : Bool) : (writeFlag s c).key = s.key := rfl
@[simp] theorem writeFlag_fault (c : Bool) : (writeFlag s c).fault = s.fault := rfl
@[simp] theorem writeFlag_faultOp (c : Bool) : (writeFlag s c).faultOp = s.faultOp := rfl
@[simp] theorem writeFlag_faultPc (c : Bool) : (writeFlag s c).faultPc = s.faultPc := rfl
@[simp] theorem writeFlag_draws (c : Bool) : (writeFlag s c).draws = s.draws := rfl
@[simp] theorem writeFlag_events (c : Bool) : (writeFlag s c).events = s.events := rfl
@[simp] theorem writeFlag_loadError (c : Bool) : (writeFlag s c).loadError = s.loadError := rfl
@[simp] theorem memRead_writeFlag (c : Bool) (m : Nat) : memRead (writeFlag s c) m = memRead s m := rfl
@[simp] theorem keyDown_writeFlag (c : Bool) (k : Nibble) : keyDown (writeFlag s c) k = keyDown s k := rfl

/-! ### writeResultFlag -/

@[simp] theorem writeResultFlag_i (x : Nibble) (r : Byte) (c : Bool) : (writeResultFlag s x r c).i = s.i := rfl
@[simp] theorem writeResultFlag_pc (x : Nibble) (r : Byte) (c : Bool) : (writeResultFlag s x r c).pc = s.pc := rfl
@[simp] theorem writeResultFlag_dt (x : Nibble) (r : Byte) (c : Bool) : (writeResultFlag s x r c).dt = s.dt := rfl
@[simp] theorem writeResultFlag_st (x : Nibble) (r : Byte) (c : Bool) : (writeResultFlag s x r c).st = s.st := rfl
@[simp] theorem writeResultFlag_stack (x : Nibble) (r : Byte) (c : Bool) : (writeResultFlag s x r c).stack = s.stack := rfl
@[simp] theorem writeResultFlag_sp (x : Nibble) (r : Byte) (c : Bool) : (writeResultFlag s x r c).sp = s.sp := rfl
@[simp] theorem writeResultFlag_mem (x : Nibble) (r : Byte) (c : Bool) : (writeResultFlag s x r c).mem = s.mem := rfl
@[simp] theorem writeResultFlag_fb (x : Nibble) (r : Byte) (c : Bool) : (writeResultFlag s x r c).fb = s.fb := rfl
@[simp] theorem writeResultFlag_key (x : Nibble) (r : Byte) (c : Bool) : (writeResultFlag s x r c).key = s.key := rfl
@[simp] theorem writeResultFlag_fault (x : Nibble) (r : Byte) (c : Bool) : (writeResultFlag s x r c).fault = s.fault := rfl
@[simp] theorem writeResultFlag_faultOp (x : Nibble) (r : Byte) (c : Bool) : (writeResultFlag s x r c).faultOp = s.faultOp := rfl
@[simp] theorem writeResultFlag_faultPc (x : Nibble) (r : Byte) (c : Bool) : (writeResultFlag s x r c).faultPc = s.faultPc := rfl
@[simp] theorem writeResultFlag_draws (x : Nibble) (r : Byte) (c : Bool) : (writeResultFlag s x r c).draws = s.draws := rfl
@[simp] theorem writeResultFlag_events (x : Nibble) (r : Byte) (c : Bool) : (writeResultFlag s x r c).events = s.events := rfl
@[simp] theorem writeResultFlag_loadError (x : Nibble) (r : Byte) (c : Bool) : (writeResultFlag s x r c).loadError = s.loadError := rfl
@[simp] theorem memRead_writeResultFlag (x : Nibble) (r : Byte) (c : Bool) (m : Nat) : memRead (writeResultFlag s x r c) m = memRead s m := rfl
@[simp] theorem keyDown_writeResultFlag (x : Nibble) (r : Byte) (c : Bool) (k : Nibble) : keyDown (writeResultFlag s x r c) k = keyDown s k := rfl

/-! ### skipIf -/

@[simp] theorem skipIf_v (c : Bool) : (skipIf c s).v = s.v := by cases c <;> rfl
@[simp] theorem skipIf_i (c : Bool) : (skipIf c s).i = s.i := by cases c <;> rfl
@[simp] theorem skipIf_dt (c : Bool) : (skipIf c s).dt = s.dt := by cases c <;> rfl
@[simp] theorem skipIf_st (c : Bool) : (skipIf c s).st = s.st := by cases c <;> rfl
@[simp] theorem skipIf_stack (c : Bool) : (skipIf c s).stack = s.stack := by cases c <;> rfl
@[simp] theorem skipIf_sp (c : Bool) : (skipIf c s).sp = s.sp := by cases c <;> rfl
@[simp] theorem skipIf_mem (c : Bool) : (skipIf c s).mem = s.mem := by cases c <;> rfl
@[simp] theorem skipIf_fb (c : Bool) : (skipIf c s).fb = s.fb := by cases c <;> rfl
@[simp] theorem skipIf_key (c : Bool) : (skipIf c s).key = s.key := by cases c <;> rfl
@[simp] theorem skipIf_fault (c : Bool) : (skipIf c s).fault = s.fault := by cases c <;> rfl
@[simp] theorem skipIf_faultOp (c : Bool) : (skipIf c s).faultOp = s.faultOp := by cases c <;> rfl
@[simp] theorem skipIf_faultPc (c : Bool) : (skipIf c s).faultPc = s.faultPc := by cases c <;> rfl
@[simp] theorem skipIf_draws (c : Bool) : (skipIf c s).draws = s.draws := by cases c <;> rfl
@[simp] theorem skipIf_events (c : Bool) : (skipIf c s).events = s.events := by cases c <;> rfl
@[simp] theorem skipIf_loadError (c : Bool) : (skipIf c s).loadError = s.loadError := by cases c <;> rfl
@[simp] theorem skipIf_pc (c : Bool) : (skipIf c s).pc = if c then s.pc + 2 else s.pc := by cases c <;> rfl
@[simp] theorem getV_skipIf (c : Bool) (r : Nibble) : getV (skipIf c s) r = getV s r := by cases c <;> rfl
@[simp] theorem memRead_skipIf (c : Bool) (m : Nat) : memRead (skipIf c s) m = memRead s m := by cases c <;> rfl
@[simp] theorem keyDown_skipIf (c : Bool) (k : Nibble) : keyDown (skipIf c s) k = keyDown s k := by cases c <;> rfl

/-- A taken skip after the fetch advance goes to `pc0 + 4` (30_encoding.md R102). -/
theorem skipIf_advance_pc (c : Bool) : (skipIf c (advance s)).pc = if c then s.pc + 4 else s.pc + 2 := by
  cases c
  · rfl
  · show s.pc + 2 + 2 = s.pc + 4
    rw [BitVec.add_assoc]
    rfl

/-! ### Registers read back -/

/-- A register reads as what was last written to it. -/
@[simp] theorem getV_setV_same (x : Nibble) (b : Byte) : getV (setV s x b) x = b := by simp [getV, setV]

/-- Writing one register leaves the others. -/
theorem getV_setV_of_ne {x r : Nibble} (h : r ≠ x) (b : Byte) : getV (setV s x b) r = getV s r := by
  have : x.toNat ≠ r.toNat := fun e => h (BitVec.eq_of_toNat_eq e.symm)
  simp [getV, setV, this]

/-- Reading any register after writing one. -/
theorem getV_setV (x r : Nibble) (b : Byte) : getV (setV s x b) r = if r = x then b else getV s r := by
  split
  · next h => rw [h, getV_setV_same]
  · next h => exact getV_setV_of_ne s h b

/-- VF reads as the flag after a flag write. -/
@[simp] theorem getV_writeFlag_vf (c : Bool) : getV (writeFlag s c) vf = flagByte c := getV_setV_same s vf _

/-- A flag write leaves every register but VF. -/
theorem getV_writeFlag_of_ne {r : Nibble} (h : r ≠ vf) (c : Bool) : getV (writeFlag s c) r = getV s r :=
  getV_setV_of_ne s h _

/-- Everything a result and a flag write do to the registers (42_alu.md R152): VF holds the flag, `V[x]` the result where
`x` is not VF, and the rest is as before. -/
theorem getV_writeResultFlag (x r : Nibble) (b : Byte) (c : Bool) :
    getV (writeResultFlag s x b c) r = if r = vf then flagByte c else if r = x then b else getV s r := by
  simp only [writeResultFlag, writeFlag, getV_setV]

/-- Writes of two different registers may be exchanged. -/
theorem setV_comm {x r : Nibble} (h : x ≠ r) (a b : Byte) : setV (setV s x a) r b = setV (setV s r b) x a := by
  have : x.toNat ≠ r.toNat := fun e => h (BitVec.eq_of_toNat_eq e)
  simp only [setV]
  congr 1
  exact Vector.set_comm _ _ this

/-- The number a flag is. -/
theorem toNat_flagByte (c : Bool) : (flagByte c).toNat = if c then 1 else 0 := by cases c <;> rfl

/-- A flag is 0 or 1 (10_state.md R21). -/
theorem flagByte_cases (c : Bool) : flagByte c = 0 ∨ flagByte c = 1 := by cases c <;> simp [flagByte]

/-- Two states with the same registers agree when every register reads the same. -/
theorem v_ext {s t : State} (h : ∀ r, getV s r = getV t r) : s.v = t.v := by
  apply Vector.ext
  intro k hk
  have := h (BitVec.ofNat 4 k)
  simpa [getV, Nat.mod_eq_of_lt hk] using this

end Sys2Proof.Machine
end

