-- ==== Sys2Proof/Laws/Memory.lean ====
section
/-! SUPPORT. The memory laws: read after write, and the canonical form kept by every memory operation (20_memory.md R74, log 23). -/

namespace Sys2Proof.Machine

theorem memLookup_filter_same (m : Memory) (a : Nat) : memLookup (m.filter (fun c => c.1 != a)) a = none := by
  induction m with
  | nil => rfl
  | cons c cs ih =>
    by_cases h : c.1 = a
    · simp [h, ih]
    · simp [h, memLookup, ih]

theorem memLookup_filter_other {a b : Nat} (m : Memory) (h : b ≠ a) :
    memLookup (m.filter (fun c => c.1 != a)) b = memLookup m b := by
  induction m with
  | nil => rfl
  | cons c cs ih =>
    by_cases hc : c.1 = a
    · have : a ≠ b := fun e => h e.symm
      simp [hc, memLookup, ih, this]
    · simp [hc, memLookup, ih]

theorem memLookup_insert_same (a : Nat) (b : Byte) (m : Memory) (h : memLookup m a = none) :
    memLookup (memInsert a b m) a = some b := by
  induction m with
  | nil => simp [memInsert, memLookup]
  | cons c cs ih =>
    have hc : c.1 ≠ a := by
      intro e
      simp [memLookup, e] at h
    simp only [memInsert]
    split
    · simp [memLookup]
    · simp only [memLookup, hc, if_false] at h ⊢
      exact ih h

theorem memLookup_insert_other {a k : Nat} (b : Byte) (m : Memory) (h : k ≠ a) :
    memLookup (memInsert a b m) k = memLookup m k := by
  have h' : a ≠ k := fun e => h e.symm
  induction m with
  | nil => simp [memInsert, memLookup, h']
  | cons c cs ih =>
    simp only [memInsert]
    split
    · simp [memLookup, h']
    · simp only [memLookup, ih]

/-- A byte reads as what was last stored there. -/
@[simp] theorem memGet_memSet_same (m : Memory) (a : Nat) (b : Byte) : memGet (memSet m a b) a = b := by
  unfold memGet memSet
  split
  · next h => simp [memLookup_filter_same, h]
  · simp [memLookup_insert_same _ _ _ (memLookup_filter_same m a)]

/-- A store leaves every other byte. -/
theorem memGet_memSet_of_ne {a k : Nat} (m : Memory) (b : Byte) (h : k ≠ a) :
    memGet (memSet m a b) k = memGet m k := by
  unfold memGet memSet
  split
  · simp [memLookup_filter_other _ h]
  · simp [memLookup_insert_other _ _ h, memLookup_filter_other _ h]

/-- Reading any byte after storing one. -/
theorem memGet_memSet (m : Memory) (a k : Nat) (b : Byte) :
    memGet (memSet m a b) k = if k = a then b else memGet m k := by
  split
  · next h => rw [h, memGet_memSet_same]
  · next h => exact memGet_memSet_of_ne m b h

theorem memRising_mono {lo lo' : Nat} (h : lo' ≤ lo) : ∀ {m : Memory}, memRising lo m = true → memRising lo' m = true
  | [], _ => rfl
  | c :: cs, hm => by
    simp only [memRising, Bool.and_eq_true, decide_eq_true_eq] at hm ⊢
    exact ⟨h.trans hm.1, hm.2⟩

theorem memRising_filter (a : Nat) : ∀ {m : Memory} {lo : Nat}, memRising lo m = true →
    memRising lo (m.filter (fun c => c.1 != a)) = true
  | [], _, _ => rfl
  | c :: cs, lo, hm => by
    simp only [memRising, Bool.and_eq_true, decide_eq_true_eq] at hm
    have ih := memRising_filter a hm.2
    by_cases hc : c.1 = a
    · simp only [List.filter_cons, hc, bne_self_eq_false, Bool.false_eq_true, if_false]
      rw [hc] at ih hm
      exact memRising_mono (by omega) ih
    · simp only [List.filter_cons, bne_iff_ne, ne_eq, hc, not_false_eq_true, if_true, memRising, Bool.and_eq_true,
        decide_eq_true_eq]
      exact ⟨hm.1, ih⟩

theorem memRising_insert (a : Nat) (b : Byte) : ∀ {m : Memory} {lo : Nat}, memRising lo m = true → lo ≤ a →
    (∀ c ∈ m, c.1 ≠ a) → memRising lo (memInsert a b m) = true
  | [], lo, _, h, _ => by simp [memInsert, memRising, h]
  | c :: cs, lo, hm, h, hne => by
    simp only [memRising, Bool.and_eq_true, decide_eq_true_eq] at hm
    have hca : c.1 ≠ a := hne c (by simp)
    simp only [memInsert]
    split
    · next hlt => simp only [memRising, Bool.and_eq_true, decide_eq_true_eq]; exact ⟨h, hlt, hm.2⟩
    · next hlt =>
      simp only [memRising, Bool.and_eq_true, decide_eq_true_eq]
      exact ⟨hm.1, memRising_insert a b hm.2 (by omega) (fun d hd => hne d (by simp [hd]))⟩

theorem mem_memInsert {a : Nat} {b : Byte} {d : Host.Cell} : ∀ {m : Memory}, d ∈ memInsert a b m → d = (a, b) ∨ d ∈ m
  | [], h => by simpa [memInsert] using h
  | c :: cs, h => by
    simp only [memInsert] at h
    split at h
    · simpa using h
    · rcases List.mem_cons.mp h with h | h
      · exact .inr (by simp [h])
      · rcases mem_memInsert h with h | h
        · exact .inl h
        · exact .inr (by simp [h])

/-- Storing a byte below 4096 keeps the canonical form. -/
theorem memSet_wf {m : Memory} (hm : m.wf = true) {a : Nat} (ha : a < memSize) (b : Byte) : (memSet m a b).wf = true := by
  simp only [Memory.wf, Bool.and_eq_true, List.all_eq_true, decide_eq_true_eq, bne_iff_ne] at hm ⊢
  obtain ⟨hr, hc⟩ := hm
  have hfil : ∀ d ∈ m.filter (fun c => c.1 != a), d.1 < memSize ∧ d.2 ≠ resetByte d.1 :=
    fun d hd => hc d (List.mem_filter.mp hd).1
  unfold memSet
  split
  · exact ⟨memRising_filter a hr, hfil⟩
  · next hb =>
    refine ⟨memRising_insert a b (memRising_filter a hr) (Nat.zero_le a) ?_, ?_⟩
    · intro c hc'
      have := (List.mem_filter.mp hc').2
      simpa using this
    · intro d hd
      rcases mem_memInsert hd with rfl | hd
      · exact ⟨ha, hb⟩
      · exact hfil d hd

/-- The empty list, memory right after reset, is in canonical form. -/
theorem memory_nil_wf : Memory.wf [] = true := rfl

theorem wrapAddr_lt (a : Nat) : wrapAddr a < memSize := Nat.mod_lt a (by decide)

/-- `MemWrite` then `MemRead` at any address (20_memory.md R61, R74). -/
theorem memRead_memWrite (s : State) (a k : Nat) (b : Byte) :
    memRead (memWrite s a b) k = if wrapAddr k = wrapAddr a then b else memRead s k := by
  simp only [memRead, memWrite_mem, memGet_memSet]

/-- `MemWrite` keeps the canonical form. -/
theorem memWrite_wf {s : State} (h : s.mem.wf = true) (a : Nat) (b : Byte) : (memWrite s a b).mem.wf = true :=
  memSet_wf h (wrapAddr_lt a) b

/-- Below the first address of a rising list nothing is listed. -/
theorem memLookup_eq_none_of_rising {a : Nat} : ∀ {m : Memory} {lo : Nat}, memRising lo m = true → a < lo →
    memLookup m a = none
  | [], _, _, _ => rfl
  | c :: cs, lo, hm, h => by
    simp only [memRising, Bool.and_eq_true, decide_eq_true_eq] at hm
    have : c.1 ≠ a := by omega
    simp only [memLookup, this, if_false]
    exact memLookup_eq_none_of_rising hm.2 (by omega)

theorem mem_of_memLookup {a : Nat} {b : Byte} : ∀ {m : Memory}, memLookup m a = some b → (a, b) ∈ m
  | c :: cs, h => by
    simp only [memLookup] at h
    split at h
    · next e => cases h; cases c; cases e; simp
    · exact List.mem_cons_of_mem _ (mem_of_memLookup h)

/-- Rising lists that list the same byte at every address are equal. -/
theorem memory_eq_of_lookup : ∀ {m m' : Memory} {lo lo' : Nat}, memRising lo m = true → memRising lo' m' = true →
    (∀ a, memLookup m a = memLookup m' a) → m = m'
  | [], [], _, _, _, _, _ => rfl
  | [], d :: ds, _, _, _, _, h => by simpa [memLookup] using h d.1
  | c :: cs, [], _, _, _, _, h => by simpa [memLookup] using h c.1
  | c :: cs, d :: ds, _, _, hm, hm', h => by
    simp only [memRising, Bool.and_eq_true, decide_eq_true_eq] at hm hm'
    have key : c.1 = d.1 := by
      rcases Nat.lt_trichotomy c.1 d.1 with hlt | he | hlt
      · have h1 := h c.1
        have hne : d.1 ≠ c.1 := by omega
        simp [memLookup, hne, memLookup_eq_none_of_rising hm'.2 (show c.1 < d.1 + 1 by omega)] at h1
      · exact he
      · have h1 := h d.1
        have hne : c.1 ≠ d.1 := by omega
        simp [memLookup, hne, memLookup_eq_none_of_rising hm.2 (show d.1 < c.1 + 1 by omega)] at h1
    have hb := h c.1
    simp only [memLookup, if_true, key.symm] at hb
    have hcd : c = d := Prod.ext key (Option.some.inj hb)
    subst hcd
    have : cs = ds := memory_eq_of_lookup hm.2 hm'.2 (fun a => by
      by_cases e : c.1 = a
      · subst e
        rw [memLookup_eq_none_of_rising hm.2 (Nat.lt_succ_self _), memLookup_eq_none_of_rising hm'.2 (Nat.lt_succ_self _)]
      · simpa [memLookup, e] using h a)
    rw [this]

/-- In canonical form, what is listed at an address is what it reads as, unless that is its reset contents. -/
theorem memLookup_of_wf {m : Memory} (hm : m.wf = true) (a : Nat) :
    memLookup m a = if memGet m a = resetByte a then none else some (memGet m a) := by
  simp only [Memory.wf, Bool.and_eq_true, List.all_eq_true, decide_eq_true_eq, bne_iff_ne] at hm
  cases h : memLookup m a with
  | none => simp [memGet, h]
  | some b =>
    have := (hm.2 _ (mem_of_memLookup h)).2
    simp [memGet, h, this]

/-- Two memories in canonical form that read the same at every address are equal data. -/
theorem memory_ext {m m' : Memory} (hm : m.wf = true) (hm' : m'.wf = true) (h : ∀ a, a < memSize → memGet m a = memGet m' a) :
    m = m' := by
  have hr := hm; have hr' := hm'
  simp only [Memory.wf, Bool.and_eq_true, List.all_eq_true, decide_eq_true_eq, bne_iff_ne] at hr hr'
  refine memory_eq_of_lookup hr.1 hr'.1 (fun a => ?_)
  by_cases ha : a < memSize
  · rw [memLookup_of_wf hm, memLookup_of_wf hm', h a ha]
  · cases e : memLookup m a with
    | some b => exact absurd (hr.2 _ (mem_of_memLookup e)).1 ha
    | none =>
      cases e' : memLookup m' a with
      | some b => exact absurd (hr'.2 _ (mem_of_memLookup e')).1 ha
      | none => rfl

end Sys2Proof.Machine
end

