-- ==== Sys2Proof/Laws/Ops.lean ====
section
/-! SUPPORT. One law per shared operation: what the transfers, the register file, the stack, the keypad and `raise` can do. -/

namespace Sys2Proof.Machine

/-! ### Transfers to and from memory -/

/-- A transfer to memory changes nothing but memory. -/
theorem storeBytes_eq (s : State) (a : Nat) (bs : List Byte) :
    storeBytes s a bs = { s with mem := (storeBytes s a bs).mem } := by
  induction bs generalizing s a with
  | nil => rfl
  | cons b bs ih => rw [storeBytes, ih]; rfl

/-- Outside the bytes it stores, a transfer leaves memory as it was. -/
theorem memRead_storeBytes_outside (bs : List Byte) : ∀ (s : State) (a k : Nat),
    (∀ j, j < bs.length → wrapAddr k ≠ wrapAddr (a + j)) → memRead (storeBytes s a bs) k = memRead s k := by
  induction bs with
  | nil => intro s a k _; rfl
  | cons b bs ih =>
    intro s a k h
    rw [storeBytes, ih, memRead_memWrite, if_neg]
    · simpa using h 0 (by simp)
    · intro j hj
      have := h (j + 1) (by simpa using hj)
      rwa [Nat.add_right_comm, Nat.add_assoc]

/-- A transfer that does not lap the address space stores its `j`-th byte at `a + j`. -/
theorem memRead_storeBytes_inside (bs : List Byte) : ∀ (s : State) (a j : Nat), bs.length ≤ memSize →
    (hj : j < bs.length) → memRead (storeBytes s a bs) (a + j) = bs[j] := by
  induction bs with
  | nil => intro s a j _ hj; simp at hj
  | cons b bs ih =>
    intro s a j hl hj
    simp only [List.length_cons] at hl hj
    cases j with
    | zero =>
      rw [storeBytes, memRead_storeBytes_outside, Nat.add_zero, memRead_memWrite, if_pos rfl]
      · rfl
      · intro j hj'
        simp only [wrapAddr, memSize, Nat.add_zero] at hl ⊢
        omega
    | succ j =>
      have e : a + (j + 1) = a + 1 + j := by omega
      rw [storeBytes, e, ih _ _ _ (by omega) (by omega)]
      rfl

/-- A transfer keeps the canonical form of memory. -/
theorem storeBytes_wf (bs : List Byte) : ∀ {s : State} (_ : s.mem.wf = true) (a : Nat), (storeBytes s a bs).mem.wf = true := by
  induction bs with
  | nil => intro s h a; exact h
  | cons b bs ih => intro s h a; exact ih (memWrite_wf h a b) (a + 1)

@[simp] theorem length_loadBytes (s : State) (a n : Nat) : (loadBytes s a n).length = n := by
  induction n generalizing a with
  | zero => rfl
  | succ n ih => simp [loadBytes, ih]

/-- The `j`-th byte of a transfer from memory. -/
theorem getElem_loadBytes (s : State) (n : Nat) : ∀ (a j : Nat) (h : j < (loadBytes s a n).length),
    (loadBytes s a n)[j] = memRead s (a + j) := by
  induction n with
  | zero => intro a j h; simp [loadBytes] at h
  | succ n ih =>
    intro a j h
    cases j with
    | zero => simp [loadBytes]
    | succ j => simp [loadBytes, ih, Nat.add_assoc, Nat.add_comm 1 j]

/-- Transfers from equal memories are equal. -/
theorem loadBytes_congr {s t : State} (h : ∀ a, memRead s a = memRead t a) (n : Nat) :
    ∀ a, loadBytes s a n = loadBytes t a n := by
  induction n with
  | zero => intro a; rfl
  | succ n ih => intro a; simp [loadBytes, h, ih]

/-! ### The register file -/

@[simp] theorem length_regsUpTo (s : State) (x : Nibble) : (regsUpTo s x).length = x.toNat + 1 := by simp [regsUpTo]

@[simp] theorem getElem_regsUpTo (s : State) (x : Nibble) (k : Nat) (h : k < (regsUpTo s x).length) :
    (regsUpTo s x)[k] = getV s (BitVec.ofNat 4 k) := by simp [regsUpTo]

@[simp] theorem length_bcdDigits (b : Byte) : (bcdDigits b).length = 3 := rfl

/-- Writing registers in a row changes nothing but registers. -/
theorem setRegs_eq (s : State) (k : Nat) (bs : List Byte) : setRegs s k bs = { s with v := (setRegs s k bs).v } := by
  induction bs generalizing s k with
  | nil => rfl
  | cons b bs ih => rw [setRegs, ih]; rfl

/-- Registers outside the row are as before. -/
theorem getV_setRegs_outside (bs : List Byte) : ∀ (s : State) (k : Nat) (r : Nibble), k + bs.length ≤ 16 →
    (r.toNat < k ∨ k + bs.length ≤ r.toNat) → getV (setRegs s k bs) r = getV s r := by
  induction bs with
  | nil => intro s k r _ _; rfl
  | cons b bs ih =>
    intro s k r hl h
    simp only [List.length_cons] at hl h
    rw [setRegs, ih _ _ _ (by omega) (by omega), getV_setV_of_ne]
    intro e
    have := congrArg BitVec.toNat e
    simp only [BitVec.toNat_ofNat] at this
    omega

/-- The `j`-th register of the row holds the `j`-th byte. -/
theorem getV_setRegs_inside (bs : List Byte) : ∀ (s : State) (k j : Nat), k + bs.length ≤ 16 → (hj : j < bs.length) →
    getV (setRegs s k bs) (BitVec.ofNat 4 (k + j)) = bs[j] := by
  induction bs with
  | nil => intro s k j _ hj; simp at hj
  | cons b bs ih =>
    intro s k j hl hj
    simp only [List.length_cons] at hl hj
    cases j with
    | zero =>
      rw [setRegs, getV_setRegs_outside, Nat.add_zero, getV_setV_same]
      · rfl
      · omega
      · left
        simp only [BitVec.toNat_ofNat]
        omega
    | succ j =>
      have e : k + (j + 1) = k + 1 + j := by omega
      rw [setRegs, e, ih _ _ _ (by omega) (by omega)]
      rfl

/-! ### The stack -/

/-- A push answers one of two things: the error at capacity, or the word in the slot SP named and SP one higher. -/
theorem push_cases (s : State) (w : Word) :
    (s.sp.val = 16 ∧ push s w = .error .stackOverflow) ∨
    ∃ (h : s.sp.val < 16), push s w = .ok { s with stack := s.stack.set s.sp.val w h, sp := ⟨s.sp.val + 1, by omega⟩ } := by
  by_cases h : s.sp.val = 16
  · exact .inl ⟨h, by simp [push, h]⟩
  · have hlt : s.sp.val < 16 := by have := s.sp.isLt; omega
    exact .inr ⟨hlt, by simp [push, h]⟩

/-- A pop answers one of two things: the error on an empty stack, or the top word and SP one lower, no slot changed. -/
theorem pop_cases (s : State) :
    (s.sp.val = 0 ∧ pop s = .error .stackUnderflow) ∨
    ∃ (h : s.sp.val - 1 < 16), 0 < s.sp.val ∧
      pop s = .ok (s.stack[s.sp.val - 1], { s with sp := ⟨s.sp.val - 1, by omega⟩ }) := by
  by_cases h : s.sp.val = 0
  · exact .inl ⟨h, by simp [pop, h]⟩
  · have hlt : s.sp.val - 1 < 16 := by have := s.sp.isLt; omega
    exact .inr ⟨hlt, by omega, by simp [pop, h]⟩

/-! ### The keypad -/

theorem mem_allKeys (k : Nibble) : k ∈ allKeys := by revert k; decide

/-- `anyPressed` finds nothing exactly when every key is up. -/
theorem anyPressed_eq_none (s : State) : anyPressed s = none ↔ ∀ k, keyDown s k = false := by
  simp only [anyPressed, List.find?_eq_none, Bool.not_eq_true]
  exact ⟨fun h k => h k (mem_allKeys k), fun h k _ => h k⟩

/-- The key `anyPressed` finds is down. -/
theorem keyDown_of_anyPressed {s : State} {k : Nibble} (h : anyPressed s = some k) : keyDown s k = true := by
  simpa using List.find?_some h

end Sys2Proof.Machine
end

