-- ==== Sys2Proof/Laws/Display.lean ====
section
/-! SUPPORT. What a pixel write, one bit and one row of a draw do to each pixel and to the collision flag (44_display.md R172, R173). -/

namespace Sys2Proof.Machine

/-- A pixel reads as what was last written to it, and the others are as before. -/
theorem pixel_setPixel (fb : Framebuffer) (r r' : Fin 32) (c c' : Fin 64) (b : Bool) :
    pixel (setPixel fb r c b) r' c' = if r' = r ∧ c' = c then b else pixel fb r' c' := by
  by_cases hr : r' = r
  · subst hr
    by_cases hc : c' = c
    · subst hc
      simp [pixel, setPixel]
    · have : c.val ≠ c'.val := fun e => hc (Fin.ext e.symm)
      simp [pixel, setPixel, hc, this]
  · have : r.val ≠ r'.val := fun e => hr (Fin.ext e.symm)
    simp [pixel, setPixel, hr, this]

/-- Two framebuffers with the same pixels are equal. -/
theorem fb_ext {f g : Framebuffer} (h : ∀ r c, pixel f r c = pixel g r c) : f = g := by
  apply Vector.ext
  intro r hr
  apply Vector.ext
  intro c hc
  exact h ⟨r, hr⟩ ⟨c, hc⟩

@[simp] theorem pixel_clearFB (r : Fin 32) (c : Fin 64) : pixel clearFB r c = false := by
  simp [pixel, clearFB]

/-- One bit of a draw inverts its pixel where the bit is set and leaves the others. -/
theorem pixel_drawBit (vx : Byte) (row : Fin 32) (b : Byte) (acc : Framebuffer × Bool) (k : Nat) (r : Fin 32) (c : Fin 64) :
    pixel (drawBit vx row b acc k).1 r c =
      (pixel acc.1 r c ^^ (decide (r = row ∧ c = pixelCol vx k) && spriteBit b k)) := by
  rw [drawBit, pixel_setPixel]
  split
  · next h => obtain ⟨rfl, rfl⟩ := h; simp
  · next h => simp [h]

/-- One bit of a draw notes a collision when it is set over an on pixel. -/
theorem collision_drawBit (vx : Byte) (row : Fin 32) (b : Byte) (acc : Framebuffer × Bool) (k : Nat) :
    (drawBit vx row b acc k).2 = (acc.2 || (pixel acc.1 row (pixelCol vx k) && spriteBit b k)) := rfl

end Sys2Proof.Machine
end

