-- ==== Sys2Proof/Laws/PerInstr.lean ====
section
/-! SUPPORT. A family of statements made per instruction: the word an instruction encodes to selects that instruction's own row
of the opcode table, `op & mask = match`, and the row stands in the table (30_encoding.md R98). -/

namespace Sys2Proof.Laws.EncodesToItsRow

/-- The word of `i` matches the row of `i`, and that row stands in the table. -/
def Statement (i : Sys2Proof.Instr) : Prop := i.row.selects (encode i) = true ∧ i.row ∈ opcodeTable

theorem nibble_and_ones (t : Nibble) : t &&& 0xF#4 = t := by revert t; decide

theorem byte_and_ones (b : Byte) : b &&& 0xFF#8 = b := BitVec.and_allOnes

/-- The mask `F000` keeps the family digit of a word with an address literal. -/
theorem and_family_nnn (t : Nibble) (nnn : Addr) : (t ++ nnn : Word) &&& 0xF000 = (t ++ 0#12 : Word) := by
  rw [show (0xF000 : Word) = (0xF#4 ++ 0#12 : Word) by decide, BitVec.and_append]
  simp [nibble_and_ones]

/-- The mask `F000` keeps the family digit of a word with a byte literal. -/
theorem and_family_nn (t x : Nibble) (nn : Byte) : (t ++ x ++ nn : Word) &&& 0xF000 = (t ++ 0#4 ++ 0#8 : Word) := by
  rw [show (0xF000 : Word) = (0xF#4 ++ 0#4 ++ 0#8 : Word) by decide, BitVec.and_append, BitVec.and_append]
  simp [nibble_and_ones]

/-- The mask `F000` keeps the family digit of a word of four digits. -/
theorem and_family_xyn (t x y n : Nibble) :
    (t ++ x ++ y ++ n : Word) &&& 0xF000 = (t ++ 0#4 ++ 0#4 ++ 0#4 : Word) := by
  rw [show (0xF000 : Word) = (0xF#4 ++ 0#4 ++ 0#4 ++ 0#4 : Word) by decide, BitVec.and_append, BitVec.and_append,
    BitVec.and_append]
  simp [nibble_and_ones]

/-- The mask `F00F` keeps the first and the last digit. -/
theorem and_ends (t x y n : Nibble) : (t ++ x ++ y ++ n : Word) &&& 0xF00F = (t ++ 0#4 ++ 0#4 ++ n : Word) := by
  rw [show (0xF00F : Word) = (0xF#4 ++ 0#4 ++ 0#4 ++ 0xF#4 : Word) by decide, BitVec.and_append, BitVec.and_append,
    BitVec.and_append]
  simp [nibble_and_ones]

/-- The mask `F0FF` keeps the family digit and the low byte. -/
theorem and_sub (t x : Nibble) (nn : Byte) : (t ++ x ++ nn : Word) &&& 0xF0FF = (t ++ 0#4 ++ nn : Word) := by
  rw [show (0xF0FF : Word) = (0xF#4 ++ 0#4 ++ 0xFF#8 : Word) by decide, BitVec.and_append, BitVec.and_append]
  simp [nibble_and_ones, byte_and_ones]


theorem cls : Statement (.cls) := ⟨by decide, by decide⟩

theorem ret : Statement (.ret) := ⟨by decide, by decide⟩

theorem jp (nnn : Addr) : Statement (.jp nnn) := by
  refine ⟨?_, by simp [opcodeTable, Instr.row]⟩
  simp only [OpcodeRow.selects, Instr.row, encode, and_family_nnn]
  decide

theorem call (nnn : Addr) : Statement (.call nnn) := by
  refine ⟨?_, by simp [opcodeTable, Instr.row]⟩
  simp only [OpcodeRow.selects, Instr.row, encode, and_family_nnn]
  decide

theorem seByte (x : Nibble) (nn : Byte) : Statement (.seByte x nn) := by
  refine ⟨?_, by simp [opcodeTable, Instr.row]⟩
  simp only [OpcodeRow.selects, Instr.row, encode, and_family_nn]
  decide

theorem sneByte (x : Nibble) (nn : Byte) : Statement (.sneByte x nn) := by
  refine ⟨?_, by simp [opcodeTable, Instr.row]⟩
  simp only [OpcodeRow.selects, Instr.row, encode, and_family_nn]
  decide

theorem seReg (x y : Nibble) : Statement (.seReg x y) := by
  refine ⟨?_, by simp [opcodeTable, Instr.row]⟩
  simp only [OpcodeRow.selects, Instr.row, encode, and_ends]
  decide

theorem ldByte (x : Nibble) (nn : Byte) : Statement (.ldByte x nn) := by
  refine ⟨?_, by simp [opcodeTable, Instr.row]⟩
  simp only [OpcodeRow.selects, Instr.row, encode, and_family_nn]
  decide

theorem addByte (x : Nibble) (nn : Byte) : Statement (.addByte x nn) := by
  refine ⟨?_, by simp [opcodeTable, Instr.row]⟩
  simp only [OpcodeRow.selects, Instr.row, encode, and_family_nn]
  decide

theorem ldReg (x y : Nibble) : Statement (.ldReg x y) := by
  refine ⟨?_, by simp [opcodeTable, Instr.row]⟩
  simp only [OpcodeRow.selects, Instr.row, encode, and_ends]
  decide

theorem orReg (x y : Nibble) : Statement (.orReg x y) := by
  refine ⟨?_, by simp [opcodeTable, Instr.row]⟩
  simp only [OpcodeRow.selects, Instr.row, encode, and_ends]
  decide

theorem andReg (x y : Nibble) : Statement (.andReg x y) := by
  refine ⟨?_, by simp [opcodeTable, Instr.row]⟩
  simp only [OpcodeRow.selects, Instr.row, encode, and_ends]
  decide

theorem xorReg (x y : Nibble) : Statement (.xorReg x y) := by
  refine ⟨?_, by simp [opcodeTable, Instr.row]⟩
  simp only [OpcodeRow.selects, Instr.row, encode, and_ends]
  decide

theorem addReg (x y : Nibble) : Statement (.addReg x y) := by
  refine ⟨?_, by simp [opcodeTable, Instr.row]⟩
  simp only [OpcodeRow.selects, Instr.row, encode, and_ends]
  decide

theorem subReg (x y : Nibble) : Statement (.subReg x y) := by
  refine ⟨?_, by simp [opcodeTable, Instr.row]⟩
  simp only [OpcodeRow.selects, Instr.row, encode, and_ends]
  decide

theorem shr (x y : Nibble) : Statement (.shr x y) := by
  refine ⟨?_, by simp [opcodeTable, Instr.row]⟩
  simp only [OpcodeRow.selects, Instr.row, encode, and_ends]
  decide

theorem subnReg (x y : Nibble) : Statement (.subnReg x y) := by
  refine ⟨?_, by simp [opcodeTable, Instr.row]⟩
  simp only [OpcodeRow.selects, Instr.row, encode, and_ends]
  decide

theorem shl (x y : Nibble) : Statement (.shl x y) := by
  refine ⟨?_, by simp [opcodeTable, Instr.row]⟩
  simp only [OpcodeRow.selects, Instr.row, encode, and_ends]
  decide

theorem sneReg (x y : Nibble) : Statement (.sneReg x y) := by
  refine ⟨?_, by simp [opcodeTable, Instr.row]⟩
  simp only [OpcodeRow.selects, Instr.row, encode, and_ends]
  decide

theorem ldI (nnn : Addr) : Statement (.ldI nnn) := by
  refine ⟨?_, by simp [opcodeTable, Instr.row]⟩
  simp only [OpcodeRow.selects, Instr.row, encode, and_family_nnn]
  decide

theorem jpV0 (nnn : Addr) : Statement (.jpV0 nnn) := by
  refine ⟨?_, by simp [opcodeTable, Instr.row]⟩
  simp only [OpcodeRow.selects, Instr.row, encode, and_family_nnn]
  decide

theorem rnd (x : Nibble) (nn : Byte) : Statement (.rnd x nn) := by
  refine ⟨?_, by simp [opcodeTable, Instr.row]⟩
  simp only [OpcodeRow.selects, Instr.row, encode, and_family_nn]
  decide

theorem drw (x y n : Nibble) : Statement (.drw x y n) := by
  refine ⟨?_, by simp [opcodeTable, Instr.row]⟩
  simp only [OpcodeRow.selects, Instr.row, encode, and_family_xyn]
  decide

theorem skp (x : Nibble) : Statement (.skp x) := by
  refine ⟨?_, by simp [opcodeTable, Instr.row]⟩
  simp only [OpcodeRow.selects, Instr.row, encode, and_sub]
  decide

theorem sknp (x : Nibble) : Statement (.sknp x) := by
  refine ⟨?_, by simp [opcodeTable, Instr.row]⟩
  simp only [OpcodeRow.selects, Instr.row, encode, and_sub]
  decide

theorem ldVxDT (x : Nibble) : Statement (.ldVxDT x) := by
  refine ⟨?_, by simp [opcodeTable, Instr.row]⟩
  simp only [OpcodeRow.selects, Instr.row, encode, and_sub]
  decide

theorem ldVxK (x : Nibble) : Statement (.ldVxK x) := by
  refine ⟨?_, by simp [opcodeTable, Instr.row]⟩
  simp only [OpcodeRow.selects, Instr.row, encode, and_sub]
  decide

theorem ldDTVx (x : Nibble) : Statement (.ldDTVx x) := by
  refine ⟨?_, by simp [opcodeTable, Instr.row]⟩
  simp only [OpcodeRow.selects, Instr.row, encode, and_sub]
  decide

theorem ldSTVx (x : Nibble) : Statement (.ldSTVx x) := by
  refine ⟨?_, by simp [opcodeTable, Instr.row]⟩
  simp only [OpcodeRow.selects, Instr.row, encode, and_sub]
  decide

theorem addI (x : Nibble) : Statement (.addI x) := by
  refine ⟨?_, by simp [opcodeTable, Instr.row]⟩
  simp only [OpcodeRow.selects, Instr.row, encode, and_sub]
  decide

theorem ldF (x : Nibble) : Statement (.ldF x) := by
  refine ⟨?_, by simp [opcodeTable, Instr.row]⟩
  simp only [OpcodeRow.selects, Instr.row, encode, and_sub]
  decide

theorem ldB (x : Nibble) : Statement (.ldB x) := by
  refine ⟨?_, by simp [opcodeTable, Instr.row]⟩
  simp only [OpcodeRow.selects, Instr.row, encode, and_sub]
  decide

theorem ldMemVx (x : Nibble) : Statement (.ldMemVx x) := by
  refine ⟨?_, by simp [opcodeTable, Instr.row]⟩
  simp only [OpcodeRow.selects, Instr.row, encode, and_sub]
  decide

theorem ldVxMem (x : Nibble) : Statement (.ldVxMem x) := by
  refine ⟨?_, by simp [opcodeTable, Instr.row]⟩
  simp only [OpcodeRow.selects, Instr.row, encode, and_sub]
  decide

end Sys2Proof.Laws.EncodesToItsRow
end

