-- ==== Sys2Proof/Laws/Step.lean ====
section
/-! SUPPORT. What a step can do, said once: the event it applies, and the cases of a cycle (30_encoding.md R101). -/

namespace Sys2Proof.Machine

/-- With no event waiting, a step is a cycle. -/
theorem step_of_no_event {s : State} (h : s.events = []) : step s = cycle s := by simp [step, h]

/-- Otherwise a step applies the oldest event. -/
theorem step_of_event {s : State} {e : Event} {es : List Event} (h : s.events = e :: es) :
    step s = applyEvent e { s with events := es } := by simp [step, h]

theorem frozen_iff (s : State) : frozen s = true ↔ s.fault ≠ .none := by simp [frozen]

/-- A cycle does one of three things: nothing, when frozen; raises UnknownOpcode; or performs the decoded instruction. -/
theorem cycle_cases (s : State) :
    (frozen s = true ∧ cycle s = .next s) ∨
    (frozen s = false ∧ (∃ op, decode (fetchWord s) = .unknownOpcode op ∧ cycle s = .next (raise s .unknownOpcode op))) ∨
    (frozen s = false ∧ ∃ i, decode (fetchWord s) = .instruction i ∧ cycle s = exec i s) := by
  cases hf : frozen s with
  | true => exact .inl ⟨rfl, by simp [cycle, hf]⟩
  | false =>
    cases hd : decode (fetchWord s) with
    | unknownOpcode op => exact .inr (.inl ⟨rfl, op, rfl, by simp [cycle, hf, hd]⟩)
    | instruction i => exact .inr (.inr ⟨rfl, i, rfl, by simp [cycle, hf, hd]⟩)

/-- A load that answers a next state did one of three things: nothing, when frozen; reported RomTooLarge; or stored its bytes. -/
theorem loadEvent_cases {start : Nat} {bytes : List Byte} {s t : State} (h : loadEvent start bytes s = .next t) :
    (frozen s = true ∧ t = s) ∨
    (frozen s = false ∧ memSize < start + bytes.length ∧ t = { s with loadError := some .romTooLarge }) ∨
    (frozen s = false ∧ start + bytes.length ≤ memSize ∧ t = { storeBytes s start bytes with loadError := none }) := by
  unfold loadEvent at h
  split at h
  · next hf => cases h; exact .inl ⟨hf, rfl⟩
  · next hf =>
    have hf : frozen s = false := by simpa using hf
    split at h
    · cases h
    · split at h
      · next hl => cases h; exact .inr (.inl ⟨hf, hl, rfl⟩)
      · next hl => cases h; exact .inr (.inr ⟨hf, by omega, rfl⟩)

/-- A tick changes nothing but the timers. -/
theorem tick_eq (s : State) : tick s = { s with dt := (tick s).dt, st := (tick s).st } := by
  unfold tick
  split <;> rfl

/-- A key event changes nothing but the keypad. -/
theorem keySet_eq (k : Nibble) (b : Bool) (s : State) : keySet k b s = { s with key := (keySet k b s).key } := by
  unfold keySet
  split <;> rfl

end Sys2Proof.Machine
end

