-- ==== Sys2Proof/Tests/Slice0.lean ====
section
/-! SUPPORT. The model's own tests. Expected values come from spec/95_test_vectors.md (a vector's id stands at its test), from the
encoding of 30_encoding.md R98, or from a count made by hand; each is about one decode or one step. At the end, a state and
operands that meet the hypotheses of each statement that has some. -/

namespace Sys2Proof.Tests

open Sys2Proof.Machine

/-! ### Helpers -/

/-- Look at a next state; nothing where the step stops. -/
def look {α : Type} (f : State → α) : Result → Option α
  | .next t => some (f t)
  | _ => none

/-- Write some registers. -/
def regs (s : State) (l : List (Nibble × Byte)) : State := l.foldl (fun s p => setV s p.1 p.2) s

/-- Write some bytes of memory. -/
def bytes (s : State) (a : Nat) (bs : List Byte) : State := storeBytes s a bs

/-- Put some keys down. -/
def keys (s : State) (ks : List Nibble) : State := ks.foldl (fun s k => keySet k true s) s

/-- Turn some pixels on. -/
def lit (s : State) (ps : List (Fin 32 × Fin 64)) : State :=
  setFB s (ps.foldl (fun fb p => setPixel fb p.1 p.2 true) s.fb)

/-- A stack pointer and one slot. -/
def slot (s : State) (sp : Fin 17) (k : Fin 16) (w : Word) : State := { s with sp := sp, stack := s.stack.set k.val w k.isLt }

/-- One step with this word placed where it is fetched. -/
def one (s : State) (w : Nat) : Result := step (s.withFetchWord 16 w)

/-- One step with these events waiting. -/
def event (s : State) (es : List Event) : Result := step { s with events := es }

/-- The columns of a row that are on. -/
def row (s : State) (r : Fin 32) : List Nat := ((List.finRange 64).filter (fun c => pixel s.fb r c)).map Fin.val

/-! ### What is ill-formed, a term for each check (R97; 20_memory.md R72; vector E8) -/

theorem test_illformed_family0 :
    wellFormedWord 0x0000 = false ∧ wellFormedWord 0x00E1 = false ∧ wellFormedWord 0x0123 = false ∧
    wellFormedWord 0x00E0 = true ∧ wellFormedWord 0x00EE = true := by decide

theorem test_illformed_family5 : wellFormedWord 0x5AB1 = false ∧ wellFormedWord 0x5AB0 = true := by decide

theorem test_illformed_family8 :
    wellFormedWord 0x8AB8 = false ∧ wellFormedWord 0x8ABD = false ∧ wellFormedWord 0x8ABF = false ∧
    wellFormedWord 0x8ABE = true ∧ wellFormedWord 0x8AB7 = true := by decide

theorem test_illformed_family9 : wellFormedWord 0x9AB1 = false ∧ wellFormedWord 0x9AB0 = true := by decide

theorem test_illformed_familyE :
    wellFormedWord 0xE19F = false ∧ wellFormedWord 0xE000 = false ∧ wellFormedWord 0xE19E = true := by decide

theorem test_illformed_familyF :
    wellFormedWord 0xF000 = false ∧ wellFormedWord 0xF1FF = false ∧ wellFormedWord 0xF175 = false ∧
    wellFormedWord 0xFFFF = false ∧ wellFormedWord 0xF165 = true := by decide

theorem test_illformed_load :
    (Event.load 4096 []).wellFormed = false ∧ (Event.load 4095 []).wellFormed = true := by decide

/-! ### Decoding, each word written out bit by bit from its row of R98 -/

theorem test_decode_family0 :
    decode 0b0000000011100000 = .instruction .cls ∧ decode 0b0000000011101110 = .instruction .ret := by decide

theorem test_decode_family1 : decode 0b0001101010111100 = .instruction (.jp 0xABC) := by decide

theorem test_decode_family2 : decode 0b0010101010111100 = .instruction (.call 0xABC) := by decide

theorem test_decode_family3 : decode 0b0011101001000010 = .instruction (.seByte 0xA 0x42) := by decide

theorem test_decode_family4 : decode 0b0100101001000010 = .instruction (.sneByte 0xA 0x42) := by decide

theorem test_decode_family5 :
    decode 0b0101101010110000 = .instruction (.seReg 0xA 0xB) ∧ decode 0b0101101010110001 = .unknownOpcode 0x5AB1 := by decide

theorem test_decode_family6 : decode 0b0110000100000101 = .instruction (.ldByte 0x1 0x05) := by decide

theorem test_decode_family7 : decode 0b0111101000001010 = .instruction (.addByte 0xA 0x0A) := by decide

theorem test_decode_family8_logic :
    decode 0b1000101010110000 = .instruction (.ldReg 0xA 0xB) ∧ decode 0b1000101010110001 = .instruction (.orReg 0xA 0xB) ∧
    decode 0b1000101010110010 = .instruction (.andReg 0xA 0xB) ∧
    decode 0b1000101010110011 = .instruction (.xorReg 0xA 0xB) := by decide

theorem test_decode_family8_arithmetic :
    decode 0b1000101010110100 = .instruction (.addReg 0xA 0xB) ∧ decode 0b1000101010110101 = .instruction (.subReg 0xA 0xB) ∧
    decode 0b1000101010110110 = .instruction (.shr 0xA 0xB) ∧ decode 0b1000101010110111 = .instruction (.subnReg 0xA 0xB) ∧
    decode 0b1000101010111110 = .instruction (.shl 0xA 0xB) ∧
    decode 0b1000101010111000 = .unknownOpcode 0x8AB8 := by decide

theorem test_decode_family9 :
    decode 0b1001101010110000 = .instruction (.sneReg 0xA 0xB) ∧ decode 0b1001101010110001 = .unknownOpcode 0x9AB1 := by decide

theorem test_decode_familyA : decode 0b1010000100100011 = .instruction (.ldI 0x123) := by decide

theorem test_decode_familyB : decode 0b1011001100000000 = .instruction (.jpV0 0x300) := by decide

theorem test_decode_familyC : decode 0b1100101000001111 = .instruction (.rnd 0xA 0x0F) := by decide

/-- E2. -/
theorem test_decode_familyD : decode 0b1101011110100101 = .instruction (.drw 0x7 0xA 0x5) := by decide

theorem test_decode_familyE :
    decode 0b1110000110011110 = .instruction (.skp 0x1) ∧ decode 0b1110000110100001 = .instruction (.sknp 0x1) ∧
    decode 0b1110000110011111 = .unknownOpcode 0xE19F := by decide

theorem test_decode_familyF_timers_keys :
    decode 0b1111000100000111 = .instruction (.ldVxDT 0x1) ∧ decode 0b1111001100001010 = .instruction (.ldVxK 0x3) ∧
    decode 0b1111000100010101 = .instruction (.ldDTVx 0x1) ∧ decode 0b1111000100011000 = .instruction (.ldSTVx 0x1) := by decide

theorem test_decode_familyF_memory :
    decode 0b1111000100011110 = .instruction (.addI 0x1) ∧ decode 0b1111000000101001 = .instruction (.ldF 0x0) ∧
    decode 0b1111000000110011 = .instruction (.ldB 0x0) ∧ decode 0b1111001101010101 = .instruction (.ldMemVx 0x3) ∧
    decode 0b1111001001100101 = .instruction (.ldVxMem 0x2) ∧ decode 0b1111000101110101 = .unknownOpcode 0xF175 := by decide

theorem test_decodeTableWord :
    decodeTableWord 16 0x8AB4 = some (.addReg 0xA 0xB) ∧ decodeTableWord 16 0xFFFF = none := by decide

/-! ### Fetch and the program counter -/

/-- E1: the first byte is the high byte. -/
theorem test_fetch_big_endian :
    look (fun t => (getV t 0xA, t.pc)) (step (bytes State.reset 0x200 [0x6A, 0x55])) = some (0x55, 0x0202) := by decide

/-- E4: the second byte of a fetch at 0xFFF comes from address 0, and PC is not reduced to 12 bits. -/
theorem test_fetch_wraps :
    look (fun t => (getV t 0xA, t.pc)) (step (bytes (setPC State.reset 0x0FFF) 0xFFF [0x6A, 0x55])) =
      some (0x55, 0x1001) := by decide

/-- E5: PC wraps at 16 bits. -/
theorem test_pc_wraps : look (fun t => t.pc) (one (setPC State.reset 0xFFFE) 0x6A55) = some 0x0000 := by decide

/-! ### Control transfer -/

/-- F4. -/
theorem test_ret :
    look (fun t => (t.pc, t.sp, t.stack[1])) (one (slot State.reset 2 1 0x0456) 0x00EE) = some (0x0456, 1, 0x0456) := by decide

/-- G1, G4: the stale slot is not used. -/
theorem test_ret_underflow :
    look (fun t => (t.fault, t.faultOp, t.faultPc, t.pc)) (one (slot State.reset 0 0 0x0333) 0x00EE) =
      some (.stackUnderflow, 0x00EE, 0x0200, 0x0200) := by decide

/-- F1. -/
theorem test_jp : look (fun t => t.pc) (one State.reset 0x1ABC) = some 0x0ABC := by decide

/-- F5: the last free slot. -/
theorem test_call_last_slot :
    look (fun t => (t.pc, t.sp, t.stack[15])) (one { setPC State.reset 0x0250 with sp := 15 } 0x2300) =
      some (0x0300, 16, 0x0252) := by decide

/-- G3. -/
theorem test_call_overflow :
    look (fun t => (t.fault, t.faultOp, t.faultPc, t.pc)) (one { setPC State.reset 0x0250 with sp := 16 } 0x2300) =
      some (.stackOverflow, 0x2300, 0x0250, 0x0250) := by decide

/-- F7: the sum is not reduced to 12 bits. -/
theorem test_jpV0 : look (fun t => t.pc) (one (regs State.reset [(0, 0xFF)]) 0xBFFF) = some 0x10FE := by decide

/-! ### Skips -/

/-- K1. -/
theorem test_seByte_taken : look (fun t => t.pc) (one (regs State.reset [(0xA, 0x42)]) 0x3A42) = some 0x0204 := by decide

/-- K11: a taken skip wraps at 16 bits. -/
theorem test_seByte_wraps : look (fun t => t.pc) (one (setPC State.reset 0xFFFE) 0x3A00) = some 0x0002 := by decide

/-- K3. -/
theorem test_sneByte_not_taken : look (fun t => t.pc) (one (regs State.reset [(0xA, 0x42)]) 0x4A42) = some 0x0202 := by decide

/-- K4. -/
theorem test_sneByte_taken : look (fun t => t.pc) (one (regs State.reset [(0xA, 0x43)]) 0x4A42) = some 0x0204 := by decide

/-- K5. -/
theorem test_seReg_taken :
    look (fun t => t.pc) (one (regs State.reset [(0xA, 7), (0xB, 7)]) 0x5AB0) = some 0x0204 := by decide

/-- K6. -/
theorem test_seReg_not_taken :
    look (fun t => t.pc) (one (regs State.reset [(0xA, 7), (0xB, 8)]) 0x5AB0) = some 0x0202 := by decide

/-- K9. -/
theorem test_sneReg_taken :
    look (fun t => t.pc) (one (regs State.reset [(0xA, 7), (0xB, 8)]) 0x9AB0) = some 0x0204 := by decide

/-- K10. -/
theorem test_sneReg_same_register : look (fun t => t.pc) (one (regs State.reset [(0xA, 9)]) 0x9AA0) = some 0x0202 := by decide

/-! ### Registers and arithmetic -/

/-- A1. -/
theorem test_ldByte : look (fun t => (getV t 0xA, t.pc)) (one State.reset 0x6AFF) = some (0xFF, 0x0202) := by decide

/-- A2 (S1): wraps, and no flag. -/
theorem test_addByte_wraps :
    look (fun t => (getV t 0xA, getV t 0xF)) (one (regs State.reset [(0xA, 0xFA)]) 0x7A0A) = some (4, 0) := by decide

/-- A3: VF as the destination. -/
theorem test_addByte_vf : look (fun t => getV t 0xF) (one (regs State.reset [(0xF, 0xFA)]) 0x7F0A) = some 4 := by decide

/-- A5. -/
theorem test_ldReg :
    look (fun t => (getV t 0xA, getV t 0xB)) (one (regs State.reset [(0xA, 1), (0xB, 0x99)]) 0x8AB0) = some (0x99, 0x99) := by
  decide

/-- A6: VF untouched. -/
theorem test_orReg :
    look (fun t => (getV t 0xA, getV t 0xF)) (one (regs State.reset [(0xA, 0xF0), (0xB, 0x0F), (0xF, 0x55)]) 0x8AB1) =
      some (0xFF, 0x55) := by decide

/-- A7. -/
theorem test_andReg :
    look (fun t => (getV t 0xA, getV t 0xF)) (one (regs State.reset [(0xA, 0xF0), (0xB, 0x3C), (0xF, 0x55)]) 0x8AB2) =
      some (0x30, 0x55) := by decide

/-- A8. -/
theorem test_xorReg :
    look (fun t => (getV t 0xA, getV t 0xF)) (one (regs State.reset [(0xA, 0xF0), (0xB, 0x3C), (0xF, 0x55)]) 0x8AB3) =
      some (0xCC, 0x55) := by decide

/-- A9. -/
theorem test_addReg_carry :
    look (fun t => (getV t 0xA, getV t 0xF)) (one (regs State.reset [(0xA, 0xC8), (0xB, 0x64)]) 0x8AB4) =
      some (0x2C, 1) := by decide

/-- A14: the old VF is the addend. -/
theorem test_addReg_vf_source :
    look (fun t => (getV t 1, getV t 0xF)) (one (regs State.reset [(1, 0x0A), (0xF, 0xFA)]) 0x81F4) = some (4, 1) := by decide

/-- A11 (S2). -/
theorem test_subReg_borrow :
    look (fun t => (getV t 0xA, getV t 0xF)) (one (regs State.reset [(0xA, 5), (0xB, 0x0A)]) 0x8AB5) = some (0xFB, 0) := by
  decide

/-- A25: equal operands, no borrow. -/
theorem test_subReg_equal :
    look (fun t => (getV t 1, getV t 0xF)) (one (regs State.reset [(1, 0x80)]) 0x8115) = some (0, 1) := by decide

/-- A19: `y` is not read. -/
theorem test_shr :
    look (fun t => (getV t 0xA, getV t 0xF, getV t 0xB)) (one (regs State.reset [(0xA, 5), (0xB, 0xFF)]) 0x8AB6) =
      some (2, 1, 0xFF) := by decide

/-- A15: the flag is what remains in VF (D5). -/
theorem test_shr_vf : look (fun t => getV t 0xF) (one (regs State.reset [(0xF, 3)]) 0x8FF6) = some 1 := by decide

/-- A20. -/
theorem test_subnReg_borrow :
    look (fun t => (getV t 0xA, getV t 0xF)) (one (regs State.reset [(0xA, 0x0A), (0xB, 5)]) 0x8AB7) = some (0xFB, 0) := by
  decide

/-- A28. -/
theorem test_subnReg_vf_source :
    look (fun t => (getV t 1, getV t 0xF)) (one (regs State.reset [(1, 0x0A), (0xF, 3)]) 0x81F7) = some (0xF9, 0) := by decide

/-- A22. -/
theorem test_shl :
    look (fun t => (getV t 0xA, getV t 0xF)) (one (regs State.reset [(0xA, 0x81)]) 0x8ABE) = some (2, 1) := by decide

/-- A16: the flag is what remains in VF (D5). -/
theorem test_shl_vf : look (fun t => getV t 0xF) (one (regs State.reset [(0xF, 0x81)]) 0x8F0E) = some 1 := by decide

/-- A23, with the draw given: `A7` under `0F`, and any draw under `00`. -/
theorem test_rnd_mask : getV (rndOp 0xA7 0xA 0x0F State.reset) 0xA = 0x07 ∧ getV (rndOp 0xA7 0xA 0x00 State.reset) 0xA = 0 := by
  decide

/-- A23: each execution uses one draw up. -/
theorem test_rnd_draws : look (fun t => (t.draws, t.pc)) (one State.reset 0xCA0F) = some (1, 0x0202) := by decide

/-! ### Index register and memory -/

/-- M1. -/
theorem test_ldI : look (fun t => t.i) (one State.reset 0xA123) = some 0x0123 := by decide

/-- M3: wraps at 12 bits. -/
theorem test_addI_wraps :
    look (fun t => t.i) (one (setI (regs State.reset [(1, 0xFF)]) 0x0F80) 0xF11E) = some 0x007F := by decide

/-- M4: VF not written (D7). -/
theorem test_addI_no_flag :
    look (fun t => (t.i, getV t 0xF)) (one (setI (regs State.reset [(1, 1), (0xF, 7)]) 0x0FFF) 0xF11E) = some (0, 7) := by decide

/-- M5. -/
theorem test_ldF : look (fun t => t.i) (one (regs State.reset [(0, 0x0A)]) 0xF029) = some 0x0082 := by decide

/-- M6: the low nibble only. -/
theorem test_ldF_low_nibble : look (fun t => t.i) (one (regs State.reset [(0, 0xFF)]) 0xF029) = some 0x009B := by decide

/-- M8. -/
theorem test_ldB :
    look (fun t => loadBytes t 0x300 3) (one (setI (regs State.reset [(0, 0xEA)]) 0x0300) 0xF033) = some [2, 3, 4] := by decide

/-- M10: the addresses wrap. -/
theorem test_ldB_wraps :
    look (fun t => loadBytes t 0xFFF 3) (one (setI (regs State.reset [(0, 0xFF)]) 0x0FFF) 0xF033) = some [2, 5, 5] := by decide

/-- M11: V4 is not stored, and I is unchanged (D8). -/
theorem test_ldMemVx :
    look (fun t => (loadBytes t 0x400 5, t.i))
      (one (setI (regs State.reset [(0, 1), (1, 2), (2, 3), (3, 4), (4, 5)]) 0x0400) 0xF355) =
      some ([1, 2, 3, 4, 0], 0x0400) := by decide

/-- M13: one register. -/
theorem test_ldMemVx_one :
    look (fun t => loadBytes t 0x400 2) (one (setI (regs State.reset [(0, 0xAB), (1, 0xCD)]) 0x0400) 0xF055) =
      some [0xAB, 0] := by decide

/-- M14: V3 is unchanged. -/
theorem test_ldVxMem :
    look (fun t => (regsUpTo t 3, t.i))
      (one (setI (regs (bytes State.reset 0x400 [0x11, 0x22, 0x33, 0x44]) [(3, 0x99)]) 0x0400) 0xF265) =
      some ([0x11, 0x22, 0x33, 0x99], 0x0400) := by decide

/-- M7: the default font, glyphs 0, 1, 2 and the first byte of 3. -/
theorem test_ldVxMem_font :
    look (fun t => regsUpTo t 15) (one (setI State.reset 0x0050) 0xFF65) =
      some [0xF0, 0x90, 0x90, 0x90, 0xF0, 0x20, 0x60, 0x20, 0x20, 0x70, 0xF0, 0x10, 0xF0, 0x80, 0xF0, 0xF0] := by decide

/-- The font as a whole: glyph 7 (P7) and glyph A (X8) where `Fx29` points. -/
theorem test_font_glyphs :
    loadBytes State.reset 0x073 5 = [0xF0, 0x10, 0x20, 0x40, 0x40] ∧
    loadBytes State.reset 0x082 5 = [0xF0, 0x90, 0xF0, 0x90, 0x90] ∧ font.length = 80 := by decide

/-! ### Display -/

/-- X12. -/
theorem test_cls :
    look (fun t => (pixel t.fb 0 0, pixel t.fb 31 63, getV t 0xF))
      (one (regs (lit State.reset [(0, 0), (31, 63)]) [(0xF, 1)]) 0x00E0) = some (false, false, 1) := by decide

/-- X3: as X1 with (5, 3) on before: that pixel goes off and VF is 1. -/
theorem test_drw_collision :
    look (fun t => (row t 5, getV t 0xF))
      (one (setI (regs (bytes (lit State.reset [(5, 3)]) 0x20A [0xF0]) [(1, 5)]) 0x020A) 0xD011) =
      some ([0, 1, 2], 1) := by decide

/-- X2: wraps at both edges. -/
theorem test_drw_wraps :
    look (fun t => (row t 31, row t 0, getV t 0xF))
      (one (setI (regs (bytes State.reset 0x300 [0xFF, 0x81]) [(1, 0x3E), (2, 0x1F)]) 0x0300) 0xD122) =
      some ([0, 1, 2, 3, 4, 5, 62, 63], [5, 62], 0) := by decide

/-! ### Keypad -/

/-- Y1. -/
theorem test_skp_down :
    look (fun t => t.pc) (one (keys (regs (setPC State.reset 0x0220) [(1, 5)]) [5]) 0xE19E) = some 0x0224 := by decide

/-- Y5: the key number is the low nibble (D9). -/
theorem test_skp_masked : look (fun t => t.pc) (one (keys (regs State.reset [(1, 0x1A)]) [0xA]) 0xE19E) = some 0x0204 := by decide

/-- Y3. -/
theorem test_sknp_up : look (fun t => t.pc) (one (regs (setPC State.reset 0x0220) [(1, 5)]) 0xE1A1) = some 0x0224 := by decide

/-- Y4. -/
theorem test_sknp_down :
    look (fun t => t.pc) (one (keys (regs (setPC State.reset 0x0220) [(1, 5)]) [5]) 0xE1A1) = some 0x0222 := by decide

/-- Y6. -/
theorem test_ldVxK_waits :
    look (fun t => (t.pc, getV t 3)) (one (regs (setPC State.reset 0x0230) [(3, 0x77)]) 0xF30A) = some (0x0230, 0x77) := by decide

/-- Y8: the lowest key (D10). -/
theorem test_ldVxK_lowest :
    look (fun t => (t.pc, getV t 3)) (one (keys (setPC State.reset 0x0230) [4, 9, 12]) 0xF30A) = some (0x0232, 4) := by decide

/-- Y10. -/
theorem test_keySet :
    look (fun t => (keyDown t 3, keyDown t 2)) (event State.reset [.keySet 3 true]) = some (true, false) ∧
    look (fun t => keyDown t 3) (event (keys State.reset [3]) [.keySet 3 false]) = some false := by decide

/-! ### Timers -/

/-- T1. -/
theorem test_ldVxDT :
    look (fun t => (getV t 1, t.dt)) (one (setDT State.reset 0x2A) 0xF107) = some (0x2A, 0x2A) := by decide

/-- T2. -/
theorem test_ldDTVx : look (fun t => t.dt) (one (regs State.reset [(1, 0x3C)]) 0xF115) = some 0x3C := by decide

/-- T3. -/
theorem test_ldSTVx :
    look (fun t => (t.st, sound t)) (one (regs State.reset [(1, 2)]) 0xF118) = some (2, true) := by decide

/-- T7. -/
theorem test_ldSTVx_zero :
    look (fun t => (t.st, sound t)) (one (setST State.reset 9) 0xF118) = some (0, false) := by decide

/-- T4, T5, T6: both timers, and not below 0. -/
theorem test_tick :
    look (fun t => (t.dt, t.st)) (event (setST (setDT State.reset 5) 1) [.tick]) = some (4, 0) ∧
    look (fun t => (t.dt, t.st)) (event (setDT State.reset 0xFF) [.tick]) = some (0xFE, 0) := by decide

/-! ### Errors, reset, loading -/

/-- The state G2 starts in, with the word placed. -/
def stateG2 : State :=
  (setST (setDT (setI (regs (setPC State.reset 0x0300) [(0xA, 3), (0xB, 4), (0xF, 9)]) 0x0123) 5) 6).withFetchWord 16 0x8AB8

/-- G2: an undefined word writes the fault record and nothing else. -/
theorem test_unknown_opcode :
    look (fun t => (t.fault, t.faultOp, t.faultPc, t.pc, regsUpTo t 15)) (step stateG2) =
      some (.unknownOpcode, 0x8AB8, 0x0300, 0x0300, [0, 0, 0, 0, 0, 0, 0, 0, 0, 0, 3, 4, 0, 0, 0, 9]) := by decide

/-- A frozen core: the state G2 reaches in its first cycle. -/
def stuck : State := raise stateG2 .unknownOpcode 0x8AB8

/-- G2, later events: nothing changes. -/
theorem test_frozen :
    look (fun t => (t.dt, t.st)) (event stuck [.tick]) = some (5, 6) ∧
    look (fun t => keyDown t 3) (event stuck [.keySet 3 true]) = some false ∧
    look (fun t => t.pc) (event stuck [.cycle]) = some 0x0300 := by decide

/-- G7. -/
theorem test_reset_event :
    look (fun t => decide (t = State.reset)) (event stuck [.reset]) = some true := by decide

/-- G5: the last byte of the largest program, at 0xFFF; G6's rule, one byte more is refused and nothing is stored. -/
theorem test_load :
    look (fun t => (memRead t 0xFFF, t.loadError)) (event State.reset [.load 0xFFE [0x12, 0x34]]) = some (0x34, none) ∧
    look (fun t => (t.mem, t.loadError, t.fault)) (event State.reset [.load 0xFFE [0x12, 0x34, 0x56]]) =
      some ([], some .romTooLarge, .none) := by decide

/-- R5: `MAX_ROM` is 3584. -/
theorem test_max_rom : maxRom = 3584 ∧ progBase + maxRom = memSize := by decide

/-- R207: the codes. -/
theorem test_error_numbers :
    [FaultCode.none, .unknownOpcode, .stackOverflow, .stackUnderflow].map faultNumber = [0, 1, 2, 3] ∧
    loadErrorNumber .romTooLarge = 4 := by decide

/-! ### For each statement with hypotheses, a state and operands that meet them all, at the ends of each clause's range -/

/-- Reset state with a stack pointer. -/
def withSP (s : State) (sp : Fin 17) : State := { s with sp := sp }

/-- Reset state with events waiting. -/
def waiting (s : State) (es : List Event) : State := { s with events := es }

theorem witness_DecodeThenEncodeGivesWord : decode 0x8AF6 = .instruction (.shr 0xA 0xF) := by decide

theorem witness_DecodeAgreesWithOpcodeMap :
    decode 0x00EE = .instruction .ret ∧ Instr.row .ret ∈ opcodeTable ∧ decode 0x00EF = .unknownOpcode 0x00EF := by decide

theorem witness_UndefinedWordsAreTheSixFamilies :
    wellFormedWord 0xF1FF = false ∧ decode 0xF1FF = .unknownOpcode 0xF1FF ∧
    wellFormedWord 0xF155 = true ∧ decode 0xF155 = .instruction (.ldMemVx 1) := by decide

theorem witness_StepRunsDecodedInstruction :
    (frozen (State.reset.withFetchWord 16 0x6A55) = false ∧
      decode (fetchWord (State.reset.withFetchWord 16 0x6A55)) = .instruction (.ldByte 0xA 0x55) ∧
      (State.reset.withFetchWord 16 0x6A55).events = []) ∧
    (waiting (State.reset.withFetchWord 16 0x6A55) [.cycle]).events = .cycle :: [] := by decide

theorem witness_UndefinedWordRaisesUnknownOpcode :
    (frozen State.reset = false ∧ wellFormedWord (fetchWord State.reset) = false ∧ State.reset.events = []) ∧
    (frozen (waiting State.reset [.cycle, .tick]) = false ∧
      wellFormedWord (fetchWord (waiting State.reset [.cycle, .tick])) = false ∧
      (waiting State.reset [.cycle, .tick]).events = .cycle :: [.tick]) := by decide

theorem witness_FrozenCoreLeavesOnlyByReset :
    frozen stuck = true ∧ stuck.events = [] ∧
    (waiting stuck [.load 5000 [1]]).events = .load 5000 [1] :: [] ∧ Event.load 5000 [1] ≠ .reset ∧
    (waiting stuck [.reset, .tick]).events = .reset :: [.tick] := by decide

theorem witness_HostEventsLeaveRegisters :
    ((waiting State.reset [.tick]).events = .tick :: [] ∧ Event.tick ≠ .cycle ∧ Event.tick ≠ .reset ∧
      ∃ t, step (waiting State.reset [.tick]) = .next t) ∧
    ((waiting State.reset [.load 4095 [7]]).events = .load 4095 [7] :: [] ∧ Event.load 4095 [7] ≠ .tick ∧
      ∃ t, step (waiting State.reset [.load 4095 [7]]) = .next t) :=
  ⟨⟨rfl, by decide, by decide, _, rfl⟩, ⟨rfl, by decide, _, rfl⟩⟩

theorem witness_OnlyIllFormedLoadStops :
    (∃ t, step State.reset = .next t) ∧
    (Event.load 4096 []).wellFormed = false ∧ frozen (waiting State.reset [.load 4096 []]) = false ∧
    step (waiting State.reset [.load 4096 []]) = .fault .loadStartOutOfRange :=
  ⟨⟨_, rfl⟩, by decide, by decide, rfl⟩

theorem witness_JumpGoesToLiteral : State.reset.pc.toNat = (0x200 : Addr).toNat := by decide

theorem witness_CallPushesReturnAddress : (withSP State.reset 0).sp.val < 16 ∧ (withSP State.reset 15).sp.val < 16 := by decide

theorem witness_ReturnPopsReturnAddress : 0 < (withSP State.reset 1).sp.val ∧ 0 < (withSP State.reset 16).sp.val := by decide

theorem witness_StackErrorsWriteOnlyTheRecord : (withSP State.reset 16).sp.val = 16 ∧ State.reset.sp.val = 0 := by decide

theorem witness_PushChecksThenWrites : (withSP State.reset 16).sp.val = 16 ∧ (withSP State.reset 15).sp.val < 16 := by decide

theorem witness_StackIsLastInFirstOut :
    State.reset.sp.val + ((List.range 16).map (BitVec.ofNat 16)).length ≤ 16 ∧
    (withSP State.reset 16).sp.val + ([] : List Word).length ≤ 16 := by decide

theorem witness_ReturnUndoesCall : (withSP State.reset 15).sp.val < 16 := by decide

theorem witness_IdleLoopStays :
    Safety.idle (State.reset.withFetchWord 16 0x1200) = true ∧ (State.reset.withFetchWord 16 0x1200).events = [] := by decide

theorem witness_ByteSkips :
    getV (regs State.reset [(0xF, 0xFF)]) 0xF = 0xFF ∧ getV (regs State.reset [(0xF, 0xFF)]) 0xF ≠ 0xFE := by decide

theorem witness_RegisterSkips :
    getV (regs State.reset [(0xF, 0xFF)]) 0xF ≠ getV (regs State.reset [(0xF, 0xFF)]) 0 ∧
    getV (regs State.reset [(0xF, 0xFF)]) 0xF = getV (regs State.reset [(0xF, 0xFF)]) 0xF ∧
    (1 : Nibble) ≠ 0 ∧ (15 : Nibble) ≠ 0 := by decide

theorem witness_KeySkips :
    ((getV (keys (regs State.reset [(1, 0xFF)]) [0xF]) 1).toNat % 16 = (0xF : Nibble).toNat ∧
      keyDown (keys (regs State.reset [(1, 0xFF)]) [0xF]) 0xF = true) ∧
    ((getV (keys (regs State.reset [(1, 0x10)]) [0xF]) 1).toNat % 16 = (0x0 : Nibble).toNat ∧
      keyDown (keys (regs State.reset [(1, 0x10)]) [0xF]) 0x0 = false) := by decide

/-- The destination is not VF: the hypothesis of the result clause of `8xy4`, `8xy5`, `8xy6`, `8xy7`, `8xyE`. -/
theorem witness_AddSetsCarry : (14 : Nibble) ≠ 15 := by decide

theorem witness_SubtractSetsNoBorrow : (14 : Nibble) ≠ 15 := by decide

theorem witness_ReverseSubtractSetsNoBorrow : (14 : Nibble) ≠ 15 := by decide

theorem witness_ShiftsMoveOneBitIntoFlag : (14 : Nibble) ≠ 15 := by decide

theorem witness_LogicIsBitwiseWithoutFlag : (0 : Nat) < 8 ∧ (7 : Nat) < 8 := by decide

theorem witness_RandomByteIsMasked : (0x0F : Byte) &&& ~~~0x0F = 0 ∧ (0x00 : Byte) &&& ~~~0x00 = 0 := by decide

/-- The dialect that departs from the default in every parameter, with `x = 15` and `x = 14`. -/
def otherDialect : Dialect where
  vfWriteOrder := .literalRows
  logicWritesVf := .clearTo0
  fx1eWritesVf := .overflow
  loadStoreIncI := .xPlus1

theorem witness_OtherDialectValues :
    otherDialect.logicWritesVf = .clearTo0 ∧ otherDialect.vfWriteOrder = .literalRows ∧
    otherDialect.fx1eWritesVf = .overflow ∧ otherDialect.loadStoreIncI = .xPlus1 ∧ (14 : Nibble) ≠ 15 := by decide

/-- A16's remark on the literal-row reading, and the sum that reaches 0xFFF and the one that passes it. -/
theorem witness_OtherDialectValues_results :
    getV (shlOp otherDialect 15 (regs State.reset [(0xF, 0x81)])) 15 = 2 ∧
    getV (addIndexOp otherDialect 1 (setI (regs State.reset [(1, 0xFF)]) 0x0F00)) 15 = 0 ∧
    getV (addIndexOp otherDialect 1 (setI (regs State.reset [(1, 0xFF)]) 0x0F01)) 15 = 1 ∧
    (storeRegsOp otherDialect 15 (setI State.reset 0x0FFF)).i = 0x000F := by decide

theorem witness_MemoryWrapsAndHolds : 4096 % 4096 = 0 % 4096 ∧ 4095 % 4096 ≠ 4096 % 4096 := by decide

theorem witness_BcdStoresThreeDigits :
    (∀ k, k < 3 → wrapAddr 0x002 ≠ indexAddr (setI State.reset 0x0FFF) k) ∧
    (∀ k, k < 3 → wrapAddr 0xFFE ≠ indexAddr (setI State.reset 0x0FFF) k) := by decide

theorem witness_StoreRegistersAtIndex :
    (15 : Nibble).toNat ≤ (15 : Nibble).toNat ∧ (0 : Nibble).toNat ≤ (0 : Nibble).toNat ∧
    (∀ k, k < (15 : Nibble).toNat + 1 → wrapAddr 0x00F ≠ indexAddr (setI State.reset 0x0FFF) k) := by decide

theorem witness_LoadRegistersFromIndex :
    (15 : Nibble).toNat ≤ (15 : Nibble).toNat ∧ (14 : Nibble).toNat < (15 : Nibble).toNat ∧
    (0 : Nibble).toNat < (1 : Nibble).toNat := by decide

/-- The state after the store itself, and that state with the registers overwritten, both meet the hypotheses. -/
theorem witness_LoadAfterStoreRestores :
    ∃ t, exec (.ldMemVx 15) State.reset = .next t ∧
      Claim.kept .index t (setV t 0 0xAA) ∧ Claim.kept .mem t (setV t 0 0xAA) ∧ (15 : Nibble).toNat ≤ (15 : Nibble).toNat :=
  ⟨storeRegsOp dialect 15 State.reset, rfl, by simp [Claim.kept], by simp [Claim.kept], Nat.le_refl _⟩

theorem witness_StoreIsSeenByNextFetch :
    1 ≤ (1 : Nibble).toNat ∧ (setI State.reset 0x0202).i = (setI State.reset 0x0202).pc + 2 ∧
    1 ≤ (15 : Nibble).toNat := by decide

/-- The sprite of X1. -/
def stateX1 : State := setI (regs (bytes State.reset 0x20A [0xF0]) [(1, 5)]) 0x020A

theorem witness_DrawXorsSpriteAndFlagsCollision :
    pixel (lit stateX1 [(5, 3)]).fb 5 3 = true ∧
    Claim.spriteOn (lit stateX1 [(5, 3)]) (getV stateX1 0) (getV stateX1 1) 1 5 3 = true ∧
    Claim.spriteOn stateX1 (getV stateX1 0) (getV stateX1 1) 1 5 4 = false ∧
    Claim.spriteOn stateX1 (getV stateX1 0) (getV stateX1 1) 0 5 3 = false := by decide

theorem witness_DrawTwiceRestoresDisplay :
    (0 : Nibble) ≠ 15 ∧ (14 : Nibble) ≠ 15 ∧
    Claim.spriteOn stateX1 (getV stateX1 0) (getV stateX1 1) 1 5 3 = true := by decide

theorem witness_BlankDrawChangesNoPixel :
    (∀ k, k < (15 : Nibble).toNat → memRead (setI State.reset 0x0300) ((setI State.reset 0x0300).i.toNat + k) = 0) ∧
    (∀ k, k < (0 : Nibble).toNat → memRead stateX1 (stateX1.i.toNat + k) = 0) := by decide

theorem witness_KeyWaitTakesLowestKey :
    (∀ k, keyDown State.reset k = false) ∧
    (keyDown (keys State.reset [15]) 15 = true ∧ ∀ j : Nibble, j.toNat < 15 → keyDown (keys State.reset [15]) j = false) ∧
    (keyDown (keys State.reset [0, 15]) 0 = true ∧ ∀ j : Nibble, j.toNat < 0 → keyDown (keys State.reset [0, 15]) j = false) := by
  decide

theorem witness_KeySetWritesOneKey :
    ((waiting State.reset [.keySet 15 true]).events = .keySet 15 true :: [] ∧
      frozen (waiting State.reset [.keySet 15 true]) = false ∧ (0 : Nibble) ≠ 15) ∧
    (waiting stuck [.keySet 0 true]).events = .keySet 0 true :: [] ∧ frozen (waiting stuck [.keySet 0 true]) = true := by decide

theorem witness_TickDecrementsBothTimers :
    ((waiting State.reset [.tick]).events = .tick :: [] ∧ frozen (waiting State.reset [.tick]) = false) ∧
    (waiting stuck [.tick]).events = .tick :: [] ∧ frozen (waiting stuck [.tick]) = true := by decide

theorem witness_TicksRunTimersDownToZero :
    frozen (waiting State.reset [.tick, .tick, .reset]) = false ∧
    (waiting State.reset [.tick, .tick, .reset]).events = List.replicate 2 .tick ++ [.reset] ∧
    (waiting State.reset [.reset]).events = List.replicate 0 .tick ++ [.reset] := by decide

theorem witness_ResetEstablishesInitialState :
    (0x04F < 4096 ∧ ¬(0x050 ≤ 0x04F ∧ 0x04F < 0x0A0)) ∧ (0x0A0 < 4096 ∧ ¬(0x050 ≤ 0x0A0 ∧ 0x0A0 < 0x0A0)) ∧
    memRead State.reset 0x04F = 0 ∧ memRead State.reset 0x0A0 = 0 ∧
    font[79]? = some (memRead State.reset (0x050 + 79)) ∧ font[0]? = some (memRead State.reset (0x050 + 0)) ∧
    (waiting stuck [.reset]).events = .reset :: [] := by decide

/-- A load that ends exactly at 4096, one that would pass it by one byte, and an empty one at the last address. -/
theorem witness_LoadIsWholeOrRefused :
    (frozen (waiting State.reset [.load 4094 [1, 2]]) = false ∧ 4094 < 4096 ∧
      (waiting State.reset [.load 4094 [1, 2]]).events = .load 4094 [1, 2] :: [] ∧
      4094 + [(1 : Byte), 2].length ≤ 4096) ∧
    (frozen (waiting State.reset [.load 4094 [1, 2, 3]]) = false ∧
      (waiting State.reset [.load 4094 [1, 2, 3]]).events = .load 4094 [1, 2, 3] :: [] ∧
      4096 < 4094 + [(1 : Byte), 2, 3].length) ∧
    (4095 < 4096 ∧ 4095 + ([] : List Byte).length ≤ 4096) := by decide

theorem witness_InvariantKeptByEveryStep :
    Safety.inv (State.reset.withFetchWord 16 0xF055) = true ∧ ∃ t, step (State.reset.withFetchWord 16 0xF055) = .next t :=
  ⟨by decide, _, rfl⟩

/-- A core not frozen, and one frozen by each error, that meet the invariant and step. -/
theorem witness_FaultRecordStaysExplained :
    (Safety.faultExplained State.reset = true ∧ ∃ t, step State.reset = .next t) ∧
    (Safety.faultExplained stuck = true ∧ ∃ t, step stuck = .next t) ∧
    Safety.faultExplained (raise (State.reset.withFetchWord 16 0x00EE) .stackUnderflow 0x00EE) = true ∧
    Safety.faultExplained (raise (withSP (State.reset.withFetchWord 16 0x2200) 16) .stackOverflow 0x2200) = true :=
  ⟨⟨by decide, _, rfl⟩, ⟨by decide, _, rfl⟩, by decide, by decide⟩

theorem witness_OnlyListedInstructionsWrite :
    (∃ t, exec (.seByte 0 0) State.reset = .next t) ∧ (∃ t, exec (.ldVxMem 3) State.reset = .next t) ∧
    Claim.writesDisplay (.seByte 0 0) = false ∧ Claim.writesMemory (.seByte 0 0) = false ∧
    Claim.writesStack (.seByte 0 0) = false ∧ Claim.writesIndex (.seByte 0 0) = false ∧
    Claim.loadsFromMemory (.ldVxMem 3) 4 = false ∧ Claim.loadsFromMemory (.ldVxMem 3) 3 = true ∧
    Claim.writesFlag (.drw 0 0 0) = true :=
  ⟨⟨_, rfl⟩, ⟨_, rfl⟩, by decide⟩

end Sys2Proof.Tests
end

section
/-! The dialect parameters off their defaults (00_scope.md R5; 92_eei_decisions.md D5 to D8): one equation per operation and
value, the arithmetic of the operations as natural numbers, and with them obligation O33. -/

namespace Sys2Proof.Machine

/-! ### Arithmetic of the shifts and of I, as natural numbers -/

theorem toNat_shrByte (a : Byte) : (shrByte a).toNat = a.toNat / 2 := by
  have := a.isLt
  simp only [shrByte, BitVec.toNat_ofNat]
  omega

theorem toNat_shlByte (a : Byte) : (shlByte a).toNat = a.toNat * 2 % 256 := by
  simp [shlByte, BitVec.toNat_ofNat]

theorem toNat_indexSum (i : Word) (b : Byte) : (indexSum i b).toNat = (i.toNat + b.toNat) % 4096 := by
  simp only [indexSum, BitVec.toNat_ofNat]
  omega

theorem toNat_indexPast (i : Word) (x : Nibble) : (indexPast i x).toNat = (i.toNat + x.toNat + 1) % 4096 := by
  simp only [indexPast, BitVec.toNat_ofNat]
  omega

/-- Bit 7 of a byte is its quotient by 128, already 0 or 1. -/
theorem toNat_flagByte_shiftOutLeft (a : Byte) : (flagByte (shiftOutLeft a)).toNat = a.toNat / 128 := by
  have := a.isLt
  simp only [toNat_flagByte, shiftOutLeft, decide_eq_true_eq]
  split <;> omega

theorem flagByte_indexOverflow (i : Word) (b : Byte) :
    flagByte (indexOverflow i b) = if i.toNat + b.toNat > 0xFFF then 1 else 0 := by
  simp only [flagByte, indexOverflow, decide_eq_true_eq, gt_iff_lt]

/-- A flag holds nothing above bit 0, so a right shift of it leaves 0. -/
theorem shrByte_flagByte (c : Bool) : shrByte (flagByte c) = 0 := by cases c <;> rfl

/-! ### I after a transfer -/

@[simp] theorem storeBytes_i (s : State) (a : Nat) (bs : List Byte) : (storeBytes s a bs).i = s.i := by
  rw [storeBytes_eq]

@[simp] theorem setRegs_i (s : State) (k : Nat) (bs : List Byte) : (setRegs s k bs).i = s.i := by
  rw [setRegs_eq]

/-! ### The arms of the two shifts -/

theorem exec_shr (x y : Nibble) (s : State) : exec (.shr x y) s = .next (shrOp dialect x s) := rfl

theorem exec_shl (x y : Nibble) (s : State) : exec (.shl x y) s = .next (shlOp dialect x s) := rfl

/-! ### The operations under each value -/

section
variable {d : Dialect}

theorem logicOp_clearTo0 (h : d.logicWritesVf = .clearTo0) (x : Nibble) (r : Byte) (s : State) :
    logicOp d x r s = setV (setV (advance s) x r) vf 0 := by
  simp only [logicOp, h]

/-- The default order of a shift (D5): the result, then the flag. -/
theorem shrOp_flagLast (h : d.vfWriteOrder = .flagLast) (x : Nibble) (s : State) :
    shrOp d x s = writeResultFlag (advance s) x (shrByte (getV s x)) (shiftOutRight (getV s x)) := by
  simp only [shrOp, h]

theorem shlOp_flagLast (h : d.vfWriteOrder = .flagLast) (x : Nibble) (s : State) :
    shlOp d x s = writeResultFlag (advance s) x (shlByte (getV s x)) (shiftOutLeft (getV s x)) := by
  simp only [shlOp, h]

/-- Where `V[x]` is not VF, the flag and the result may be written in either order. -/
theorem writeResultFlag_of_ne {x : Nibble} (hx : x ≠ vf) (s : State) (r : Byte) (c : Bool) :
    writeResultFlag s x r c = setV (writeFlag s c) x r :=
  setV_comm s hx r (flagByte c)

/-- The literal order differs from the default only at `x = 15` (R152). -/
theorem shrOp_literalRows_of_ne (h : d.vfWriteOrder = .literalRows) {x : Nibble} (hx : x ≠ vf) (s : State) :
    shrOp d x s = writeResultFlag (advance s) x (shrByte (getV s x)) (shiftOutRight (getV s x)) := by
  simp only [shrOp, h, writeResultFlag_of_ne hx, getV_writeFlag_of_ne _ hx, getV_advance]

theorem shlOp_literalRows_of_ne (h : d.vfWriteOrder = .literalRows) {x : Nibble} (hx : x ≠ vf) (s : State) :
    shlOp d x s = writeResultFlag (advance s) x (shlByte (getV s x)) (shiftOutLeft (getV s x)) := by
  simp only [shlOp, h, writeResultFlag_of_ne hx, getV_writeFlag_of_ne _ hx, getV_advance]

/-- At `x = 15` the literal order shifts the flag it has just written (R152). -/
theorem getV_shrOp_literalRows_vf (h : d.vfWriteOrder = .literalRows) (s : State) :
    getV (shrOp d vf s) vf = shrByte (flagByte (shiftOutRight (getV s vf))) := by
  simp only [shrOp, h, getV_setV_same, getV_writeFlag_vf]

theorem getV_shlOp_literalRows_vf (h : d.vfWriteOrder = .literalRows) (s : State) :
    getV (shlOp d vf s) vf = shlByte (flagByte (shiftOutLeft (getV s vf))) := by
  simp only [shlOp, h, getV_setV_same, getV_writeFlag_vf]

theorem addIndexOp_overflow (h : d.fx1eWritesVf = .overflow) (x : Nibble) (s : State) :
    addIndexOp d x s =
      writeFlag (setI (advance s) (indexSum s.i (getV s x))) (indexOverflow s.i (getV s x)) := by
  simp only [addIndexOp, h]

theorem stepIndex_xPlus1 (h : d.loadStoreIncI = .xPlus1) (x : Nibble) (s : State) :
    stepIndex d x s = setI s (indexPast s.i x) := by
  simp only [stepIndex, h]

theorem storeRegsOp_i_xPlus1 (h : d.loadStoreIncI = .xPlus1) (x : Nibble) (s : State) :
    (storeRegsOp d x s).i = indexPast s.i x := by
  simp only [storeRegsOp, stepIndex_xPlus1 h, setI_i, storeBytes_i, advance_i]

theorem loadRegsOp_i_xPlus1 (h : d.loadStoreIncI = .xPlus1) (x : Nibble) (s : State) :
    (loadRegsOp d x s).i = indexPast s.i x := by
  simp only [loadRegsOp, stepIndex_xPlus1 h, setI_i, setRegs_i, advance_i]

/-! ### What each value leaves in the registers and in I -/

/-- 42_alu.md R143, D6. -/
theorem logicOp_clearTo0_regs (h : d.logicWritesVf = .clearTo0) (x : Nibble) (r : Byte) (s : State) :
    getV (logicOp d x r s) vf = 0 ∧ (x ≠ vf → getV (logicOp d x r s) x = r) := by
  rw [logicOp_clearTo0 h]
  refine ⟨getV_setV_same _ _ _, fun hx => ?_⟩
  rw [getV_setV_of_ne _ hx, getV_setV_same]

/-- 42_alu.md R152, D5, off VF. -/
theorem exec_shifts_eq_literalRows (h : d.vfWriteOrder = .literalRows) {x : Nibble} (hx : x ≠ vf) (y : Nibble) (s : State) :
    exec (.shr x y) s = .next (shrOp d x s) ∧ exec (.shl x y) s = .next (shlOp d x s) := by
  have hdef : dialect.vfWriteOrder = .flagLast := rfl
  constructor
  · rw [exec_shr, shrOp_flagLast hdef, shrOp_literalRows_of_ne h hx]
  · rw [exec_shl, shlOp_flagLast hdef, shlOp_literalRows_of_ne h hx]

/-- 42_alu.md R152, D5, at VF. -/
theorem shifts_literalRows_vf (h : d.vfWriteOrder = .literalRows) (s : State) :
    getV (shrOp d vf s) vf = 0 ∧ (getV (shlOp d vf s) vf).toNat = (getV s vf).toNat / 128 * 2 % 256 := by
  constructor
  · rw [getV_shrOp_literalRows_vf h, shrByte_flagByte]
  · rw [getV_shlOp_literalRows_vf h, toNat_shlByte, toNat_flagByte_shiftOutLeft]

/-- 43_index_memory.md R161, D7. -/
theorem addIndexOp_overflow_index_flag (h : d.fx1eWritesVf = .overflow) (x : Nibble) (s : State) :
    (addIndexOp d x s).i.toNat = (s.i.toNat + (getV s x).toNat) % 4096 ∧
    getV (addIndexOp d x s) vf = if s.i.toNat + (getV s x).toNat > 0xFFF then 1 else 0 := by
  rw [addIndexOp_overflow h]
  constructor
  · rw [writeFlag_i, setI_i, toNat_indexSum]
  · rw [getV_writeFlag_vf, flagByte_indexOverflow]

/-- 43_index_memory.md R164, D8. -/
theorem transfers_xPlus1_index (h : d.loadStoreIncI = .xPlus1) (x : Nibble) (s : State) :
    (storeRegsOp d x s).i.toNat = (s.i.toNat + x.toNat + 1) % 4096 ∧
    (loadRegsOp d x s).i.toNat = (s.i.toNat + x.toNat + 1) % 4096 := by
  rw [storeRegsOp_i_xPlus1 h, loadRegsOp_i_xPlus1 h, toNat_indexPast]
  exact ⟨rfl, rfl⟩

end

/-- Settles O33: one clause per parameter value, two for the order of the shifts (`x` other than 15, and 15). -/
theorem otherDialectValues : Obligations.OtherDialectValues := by
  intro d x y r s
  exact ⟨fun h => logicOp_clearTo0_regs h x r s, fun h hx => exec_shifts_eq_literalRows h hx y s,
    fun h => shifts_literalRows_vf h s, fun h => addIndexOp_overflow_index_flag h x s,
    fun h => transfers_xPlus1_index h x s⟩

end Sys2Proof.Machine
end

section
/-! Frames read off the fields, and the stack (10_state.md R28 to R30): what one push and one pop do, and words pushed and
popped in a row. -/

namespace Sys2Proof.Machine

open Claim

/-- Every part of a state is kept in the state itself. A part that an update does not touch computes to the same claim, so this
is also the frame of an update. -/
theorem kept_refl (p : Part) (s : State) : kept p s s := by
  cases p with
  | stack => exact ⟨rfl, rfl⟩
  | faultRecord => exact ⟨rfl, rfl, rfl⟩
  | regs => exact fun _ => rfl
  | mem => exact fun _ => rfl
  | keys => exact fun _ => rfl
  | fb => exact fun _ _ => rfl
  | _ => rfl

/-- New slots and a new pointer are a change of the stack alone. -/
theorem keptBut_stack (s : State) (k : Vector Word 16) (p : Fin 17) : keptBut [.stack] s { s with stack := k, sp := p } := by
  intro q hq
  have h := kept_refl q s
  cases q with
  | stack => simp at hq
  | _ => exact h

/-! ### One push, one pop -/

theorem push_of_full {s : State} (h : s.sp.val = 16) (w : Word) : push s w = .error .stackOverflow := by
  obtain ⟨-, hp⟩ | ⟨hlt, -⟩ := push_cases s w
  · exact hp
  · omega

/-- Below capacity a push writes the slot SP names, moves SP up by one, and changes nothing else (R29). -/
theorem push_of_lt {s : State} (h : s.sp.val < 16) (w : Word) :
    ∃ t, push s w = .ok t ∧ t.stack[s.sp.val]? = some w ∧ t.sp.val = s.sp.val + 1 ∧
      (∀ k, k ≠ s.sp.val → t.stack[k]? = s.stack[k]?) ∧ keptBut [.stack] s t := by
  obtain ⟨hfull, -⟩ | ⟨hlt, hp⟩ := push_cases s w
  · omega
  · refine ⟨_, hp, ?_, rfl, fun k hk => ?_, keptBut_stack s _ _⟩
    · simp
    · exact Vector.getElem?_set_ne hlt hk.symm

/-- A pop of a stack that is not empty answers the slot below SP, moves SP down by one, and changes no slot (R30). -/
theorem pop_of_pos {s : State} (h : 0 < s.sp.val) :
    ∃ w t, pop s = .ok (w, t) ∧ s.stack[s.sp.val - 1]? = some w ∧ t.sp.val = s.sp.val - 1 ∧ t.stack = s.stack := by
  obtain ⟨hempty, -⟩ | ⟨hlt, -, hp⟩ := pop_cases s
  · omega
  · exact ⟨_, _, hp, Vector.getElem?_eq_getElem hlt, rfl, rfl⟩

/-- Settles O17: the two sides of the capacity check. -/
theorem pushChecksThenWrites : Obligations.PushChecksThenWrites := by
  intro s w
  exact ⟨fun h => push_of_full h w, fun h => push_of_lt h w⟩

/-! ### Words in a row -/

/-- One pop more adds its word at the end of the list. -/
theorem popAll_succ {n : Nat} : ∀ {s t u : State} {ws : List Word} {w : Word},
    popAll s n = .ok (ws, t) → pop t = .ok (w, u) → popAll s (n + 1) = .ok (ws ++ [w], u) := by
  induction n with
  | zero =>
    intro s t u ws w hs ht
    cases hs
    simp [popAll, ht]
  | succ n ih =>
    intro s t u ws w hs ht
    rw [popAll] at hs
    split at hs
    · cases hs
    · next v s' hv =>
      split at hs
      · cases hs
      · next vs t' hvs =>
        cases hs
        rw [popAll, hv]
        simp [ih hvs ht]

/-- The statement of O18 with what its induction needs: the slots below the starting pointer are as they were, so that the
word pushed before is still there when its turn to be popped comes. -/
theorem popAll_of_pushAll (ws : List Word) : ∀ s : State, s.sp.val + ws.length ≤ 16 →
    ∃ t u, pushAll s ws = .ok t ∧ t.sp.val = s.sp.val + ws.length ∧ popAll t ws.length = .ok (ws.reverse, u) ∧
      u.sp = s.sp ∧ ∀ k, k < s.sp.val → u.stack[k]? = s.stack[k]? := by
  induction ws with
  | nil => exact fun s _ => ⟨s, s, rfl, rfl, rfl, rfl, fun _ _ => rfl⟩
  | cons w ws ih =>
    intro s hs
    rw [List.length_cons] at hs
    obtain ⟨s₁, hpush, hslot, hsp₁, hbelow₁, -⟩ := push_of_lt (s := s) (by omega) w
    obtain ⟨t, u, hpushAll, hspt, hpopAll, hspu, hbelow⟩ := ih s₁ (by omega)
    have hspu : u.sp.val = s.sp.val + 1 := by rw [hspu, hsp₁]
    obtain ⟨w', u', hpop, htop, hspu', hstack⟩ := pop_of_pos (s := u) (by omega)
    have hw : w' = w := by
      rw [hspu, Nat.add_sub_cancel, hbelow _ (by omega), hslot] at htop
      exact (Option.some.inj htop).symm
    subst hw
    refine ⟨t, u', ?_, ?_, ?_, Fin.ext (by omega), fun k hk => ?_⟩
    · simp only [pushAll, hpush, hpushAll]
    · rw [List.length_cons]
      omega
    · rw [List.length_cons, List.reverse_cons]
      exact popAll_succ hpopAll hpop
    · rw [hstack, hbelow k (by omega), hbelow₁ k (by omega)]

/-- Settles O18, by induction on the words pushed. -/
theorem stackIsLastInFirstOut : Obligations.StackIsLastInFirstOut := by
  intro s ws hs
  obtain ⟨t, u, hpush, hsp, hpop, hspu, -⟩ := popAll_of_pushAll ws s hs
  exact ⟨t, u, hpush, hsp, hpop, hspu⟩

end Sys2Proof.Machine
end

section
/-! The events of the host (10_state.md R28) and the state after `Reset` (R35). -/

namespace Sys2Proof.Machine

open Claim

/-! ### The events of the host -/

/-- A load changes nothing but memory, whose canonical form it keeps, and the report to the host (20_memory.md R72). -/
theorem loadEvent_writes {start : Nat} {bytes : List Byte} {s t : State} (h : loadEvent start bytes s = .next t) :
    ∃ m r, t = { s with mem := m, loadError := r } ∧ (s.mem.wf = true → m.wf = true) := by
  obtain ⟨-, rfl⟩ | ⟨-, -, rfl⟩ | ⟨-, -, rfl⟩ := loadEvent_cases h
  · exact ⟨t.mem, t.loadError, rfl, id⟩
  · exact ⟨s.mem, _, rfl, id⟩
  · refine ⟨(storeBytes s start bytes).mem, none, ?_, fun hm => storeBytes_wf bytes hm start⟩
    rw [storeBytes_eq]

/-- Settles O10: each of the three events is an update of parts that no register belongs to, but for the timers of `Tick`. -/
theorem hostEventsLeaveRegisters : Obligations.HostEventsLeaveRegisters := by
  intro s t e es hs hcycle hreset ht
  rw [step_of_event hs] at ht
  cases e with
  | cycle => exact absurd rfl hcycle
  | reset => exact absurd rfl hreset
  | tick =>
    cases ht
    rw [tick_eq]
    exact ⟨kept_refl .regs s, rfl, rfl, kept_refl .stack s, fun h => absurd rfl h⟩
  | keySet k b =>
    cases ht
    rw [keySet_eq]
    exact ⟨kept_refl .regs s, rfl, rfl, kept_refl .stack s, fun _ => ⟨rfl, rfl⟩⟩
  | load start bytes =>
    obtain ⟨m, r, rfl, -⟩ := loadEvent_writes ht
    exact ⟨kept_refl .regs s, rfl, rfl, kept_refl .stack s, fun _ => ⟨rfl, rfl⟩⟩

/-! ### The state after Reset -/

@[simp] theorem getV_reset (r : Nibble) : getV State.reset r = 0 := Vector.getElem_replicate ..

@[simp] theorem keyDown_reset (k : Nibble) : keyDown State.reset k = false := Vector.getElem_replicate ..

@[simp] theorem pixel_reset (r : Fin 32) (c : Fin 64) : pixel State.reset.fb r c = false := pixel_clearFB r c

theorem stack_reset {k : Nat} (h : k < 16) : State.reset.stack[k]? = some 0 := by simp [State.reset, h]

/-- After reset every address reads as its reset contents. -/
theorem memRead_reset {a : Nat} (h : a < memSize) : memRead State.reset a = resetByte a := by
  show resetByte (a % memSize) = resetByte a
  rw [Nat.mod_eq_of_lt h]

theorem resetByte_outside_font {a : Nat} (h : ¬(fontBase ≤ a ∧ a < fontBase + 80)) : resetByte a = 0 := if_neg h

theorem resetByte_font {k : Nat} (h : k < 80) : font[k]? = some (resetByte (fontBase + k)) := by
  have hlen : k < font.length := h
  simp [resetByte, h, hlen]

/-- A Reset event gives the state after reset, but for the events still to come and the count of draws. -/
theorem resetEvent_keptBut (s : State) : keptBut [.events, .draws] State.reset (resetEvent s) := by
  intro p hp
  have h := kept_refl p State.reset
  cases p with
  | events => simp at hp
  | draws => simp at hp
  | _ => exact h

/-- Settles O52: the values part by part, then the event, whose state differs from the reset state only in the model's own
fields. -/
theorem resetEstablishesInitialState : Obligations.ResetEstablishesInitialState := by
  refine ⟨getV_reset, rfl, rfl, rfl, rfl, fun k => stack_reset, rfl, fun a ha hfont => ?_, fun k hk => ?_, pixel_reset,
    keyDown_reset, rfl, rfl, rfl, fun s es hs => ?_⟩
  · rw [memRead_reset ha, resetByte_outside_font hfont]
  · rw [memRead_reset (by simp only [memSize]; omega)]
    exact resetByte_font hk
  · exact ⟨_, step_of_event hs, rfl, rfl, resetEvent_keptBut _⟩

end Sys2Proof.Machine
end

section
/-! What an instruction can do, said once for all 34: the kind of write each makes, and from it the table of writers
(10_state.md R40). -/

namespace Sys2Proof.Machine

open Claim

/-- The kinds of change an instruction `i` makes to the state `s` its cycle began with. Each kind names in its hypotheses the
instructions that may make it, in the terms of the table of R40. -/
inductive Effect (i : Instr) (s : State) : State → Prop
  /-- Only PC: jumps, skips, and the wait for a key. -/
  | goto (a : Word) : Effect i s (setPC s a)
  /-- A register, without a flag. -/
  | register (x : Nibble) (b : Byte) (hd : destination i = some x) : Effect i s (setV (advance s) x b)
  /-- A register and then the flag. -/
  | result (x : Nibble) (b : Byte) (c : Bool) (hd : destination i = some x) (hf : writesFlag i = true) :
      Effect i s (writeResultFlag (advance s) x b c)
  /-- A register by a random draw, which is used up. -/
  | random (x : Nibble) (nn draw : Byte) (hi : i = .rnd x nn) : Effect i s (rndOp draw x nn s)
  /-- The registers loaded from memory. -/
  | registers (v : Vector Byte 16)
      (hv : ∀ r, loadsFromMemory i r = false → getV { advance s with v := v } r = getV s r) :
      Effect i s { advance s with v := v }
  /-- I, with an address of 12 bits. -/
  | index (a : Word) (hw : writesIndex i = true) (ha : a.toNat < 4096) : Effect i s (setI (advance s) a)
  | delayTimer (x : Nibble) (hi : i = .ldDTVx x) : Effect i s (setDT (advance s) (getV s x))
  | soundTimer (x : Nibble) (hi : i = .ldSTVx x) : Effect i s (setST (advance s) (getV s x))
  /-- Memory, whose canonical form is kept. -/
  | memory (m : Memory) (hw : writesMemory i = true) (hm : s.mem.wf = true → m.wf = true) :
      Effect i s { advance s with mem := m }
  | display (fb : Framebuffer) (hw : writesDisplay i = true) : Effect i s (setFB (advance s) fb)
  /-- The display and then the flag. -/
  | displayFlag (fb : Framebuffer) (c : Bool) (hw : writesDisplay i = true) (hf : writesFlag i = true) :
      Effect i s (writeFlag (setFB (advance s) fb) c)
  /-- The stack and PC. -/
  | stack (a : Word) (k : Vector Word 16) (p : Fin 17) (hw : writesStack i = true) :
      Effect i s { s with pc := a, stack := k, sp := p }
  /-- A stack error, taken in place of everything else. -/
  | error (e : FaultCode) (op : Word) (hw : writesStack i = true) : Effect i s (raise s e op)

/-! ### The three instructions whose meaning branches on an operation's answer -/

theorem exec_ret_of_ok {s t : State} {w : Word} (h : pop (advance s) = .ok (w, t)) : exec .ret s = .next (setPC t w) := by
  simp only [exec, execRet, h]

theorem exec_ret_of_error {s : State} {e : FaultCode} (h : pop (advance s) = .error e) :
    exec .ret s = .next (raise s e (encode .ret)) := by
  simp only [exec, execRet, h]

theorem exec_call_of_ok {s t : State} {nnn : Addr} (h : push (advance s) (advance s).pc = .ok t) :
    exec (.call nnn) s = .next (setPC t (zext16 nnn)) := by
  simp only [exec, execCall, h]

theorem exec_call_of_error {s : State} {nnn : Addr} {e : FaultCode} (h : push (advance s) (advance s).pc = .error e) :
    exec (.call nnn) s = .next (raise s e (encode (.call nnn))) := by
  simp only [exec, execCall, h]

theorem exec_ldVxK_of_some {s : State} {k : Nibble} (x : Nibble) (h : anyPressed s = some k) :
    exec (.ldVxK x) s = .next (setV (advance s) x (k.setWidth 8)) := by
  simp only [exec, execLdVxK, h]

theorem exec_ldVxK_of_none {s : State} (x : Nibble) (h : anyPressed s = none) :
    exec (.ldVxK x) s = .next (setPC (advance s) s.pc) := by
  simp only [exec, execLdVxK, h]

/-! ### Every instruction has one of the effects -/

/-- A skip, taken or not, changes only PC. -/
theorem Effect.skipIf (i : Instr) (c : Bool) (s : State) : Effect i s (skipIf c (advance s)) := by
  cases c with
  | false => exact .goto _
  | true => exact .goto _

theorem Effect.storeBytes {i : Instr} (hw : writesMemory i = true) (s : State) (a : Nat) (bs : List Byte) :
    Effect i s (storeBytes (advance s) a bs) := by
  rw [storeBytes_eq]
  exact .memory _ hw fun hm => storeBytes_wf (s := advance s) bs hm a

/-- `Fx65` fills the registers up to `x` and leaves those above. -/
theorem Effect.setRegs (x : Nibble) (s : State) {bs : List Byte} (hbs : bs.length = x.toNat + 1) :
    Effect (.ldVxMem x) s (setRegs (advance s) 0 bs) := by
  have hx := x.isLt
  rw [setRegs_eq]
  refine .registers _ fun r hr => ?_
  have hr : x.toNat < r.toNat := by simpa [loadsFromMemory] using hr
  rw [← setRegs_eq]
  exact getV_setRegs_outside bs (advance s) 0 r (by omega) (.inr (by omega))

theorem toNat_zext16_lt (nnn : Addr) : (zext16 nnn).toNat < 4096 := by
  simp only [zext16, BitVec.toNat_setWidth]
  omega

theorem toNat_indexSum_lt (i : Word) (b : Byte) : (indexSum i b).toNat < 4096 := by
  rw [toNat_indexSum]
  omega

theorem toNat_glyphAddr_lt (d : Nibble) : (glyphAddr d).toNat < 4096 := by
  have := d.isLt
  rw [glyphAddr, BitVec.toNat_ofNat]
  refine (Nat.mod_le _ _).trans_lt ?_
  simp only [fontBase, glyphBytes]
  omega

theorem exec_ret_effect (s : State) : ∃ t, exec .ret s = .next t ∧ Effect .ret s t := by
  obtain ⟨-, hp⟩ | ⟨_, -, hp⟩ := pop_cases (advance s)
  · exact ⟨_, exec_ret_of_error hp, .error _ _ rfl⟩
  · exact ⟨_, exec_ret_of_ok hp, .stack _ _ _ rfl⟩

theorem exec_call_effect (nnn : Addr) (s : State) : ∃ t, exec (.call nnn) s = .next t ∧ Effect (.call nnn) s t := by
  obtain ⟨-, hp⟩ | ⟨_, hp⟩ := push_cases (advance s) (advance s).pc
  · exact ⟨_, exec_call_of_error hp, .error _ _ rfl⟩
  · exact ⟨_, exec_call_of_ok hp, .stack _ _ _ rfl⟩

theorem exec_ldVxK_effect (x : Nibble) (s : State) : ∃ t, exec (.ldVxK x) s = .next t ∧ Effect (.ldVxK x) s t := by
  cases hk : anyPressed s with
  | none => exact ⟨_, exec_ldVxK_of_none x hk, .goto _⟩
  | some k => exact ⟨_, exec_ldVxK_of_some x hk, .register x _ rfl⟩

/-- Every instruction completes, with one of the effects. -/
theorem exec_effect (i : Instr) (s : State) : ∃ t, exec i s = .next t ∧ Effect i s t := by
  cases i with
  | cls => exact ⟨_, rfl, .display clearFB rfl⟩
  | ret => exact exec_ret_effect s
  | jp nnn => exact ⟨_, rfl, .goto (zext16 nnn)⟩
  | call nnn => exact exec_call_effect nnn s
  | seByte x nn => exact ⟨_, rfl, .skipIf _ _ s⟩
  | sneByte x nn => exact ⟨_, rfl, .skipIf _ _ s⟩
  | seReg x y => exact ⟨_, rfl, .skipIf _ _ s⟩
  | ldByte x nn => exact ⟨_, rfl, .register x _ rfl⟩
  | addByte x nn => exact ⟨_, rfl, .register x _ rfl⟩
  | ldReg x y => exact ⟨_, rfl, .register x _ rfl⟩
  | orReg x y => exact ⟨_, rfl, .register x _ rfl⟩
  | andReg x y => exact ⟨_, rfl, .register x _ rfl⟩
  | xorReg x y => exact ⟨_, rfl, .register x _ rfl⟩
  | addReg x y => exact ⟨_, rfl, .result x _ _ rfl rfl⟩
  | subReg x y => exact ⟨_, rfl, .result x _ _ rfl rfl⟩
  | shr x y => exact ⟨_, rfl, .result x _ _ rfl rfl⟩
  | subnReg x y => exact ⟨_, rfl, .result x _ _ rfl rfl⟩
  | shl x y => exact ⟨_, rfl, .result x _ _ rfl rfl⟩
  | sneReg x y => exact ⟨_, rfl, .skipIf _ _ s⟩
  | ldI nnn => exact ⟨_, rfl, .index _ rfl (toNat_zext16_lt nnn)⟩
  | jpV0 nnn => exact ⟨_, rfl, .goto (offsetTarget nnn (getV s 0))⟩
  | rnd x nn => exact ⟨_, rfl, .random x nn _ rfl⟩
  | drw x y n => exact ⟨_, rfl, .displayFlag _ _ rfl rfl⟩
  | skp x => exact ⟨_, rfl, .skipIf _ _ s⟩
  | sknp x => exact ⟨_, rfl, .skipIf _ _ s⟩
  | ldVxDT x => exact ⟨_, rfl, .register x _ rfl⟩
  | ldVxK x => exact exec_ldVxK_effect x s
  | ldDTVx x => exact ⟨_, rfl, .delayTimer x rfl⟩
  | ldSTVx x => exact ⟨_, rfl, .soundTimer x rfl⟩
  | addI x => exact ⟨_, rfl, .index _ rfl (toNat_indexSum_lt _ _)⟩
  | ldF x => exact ⟨_, rfl, .index _ rfl (toNat_glyphAddr_lt _)⟩
  | ldB x => exact ⟨_, rfl, .storeBytes rfl s _ _⟩
  | ldMemVx x => exact ⟨_, rfl, .storeBytes rfl s _ _⟩
  | ldVxMem x => exact ⟨_, rfl, .setRegs x s (length_loadBytes _ _ _)⟩

/-- The inversion of `exec`: whatever it answers is one of the effects. -/
theorem effect_of_exec {i : Instr} {s t : State} (h : exec i s = .next t) : Effect i s t := by
  obtain ⟨u, hu, heff⟩ := exec_effect i s
  rw [h] at hu
  cases hu
  exact heff

/-- The six flag-writing instructions write their flag last (42_alu.md R152, 44_display.md R171). -/
theorem exec_of_writesFlag {i : Instr} (h : writesFlag i = true) (s : State) : ∃ u c, exec i s = .next (writeFlag u c) := by
  cases i with
  | addReg => exact ⟨_, _, rfl⟩
  | subReg => exact ⟨_, _, rfl⟩
  | shr => exact ⟨_, _, rfl⟩
  | subnReg => exact ⟨_, _, rfl⟩
  | shl => exact ⟨_, _, rfl⟩
  | drw => exact ⟨_, _, rfl⟩
  | _ => cases h

/-! ### What each effect leaves as it was -/

namespace Effect

variable {i : Instr} {s t : State}

theorem kept_fb (h : Effect i s t) (hn : writesDisplay i = false) : kept .fb s t := by
  cases h with
  | display _ hw => simp [hw] at hn
  | displayFlag _ _ hw => simp [hw] at hn
  | _ => exact kept_refl .fb s

theorem kept_mem (h : Effect i s t) (hn : writesMemory i = false) : kept .mem s t := by
  cases h with
  | memory _ hw => simp [hw] at hn
  | _ => exact kept_refl .mem s

theorem kept_stack (h : Effect i s t) (hn : writesStack i = false) : kept .stack s t := by
  cases h with
  | stack _ _ _ hw => simp [hw] at hn
  | _ => exact kept_refl .stack s

theorem kept_faultRecord (h : Effect i s t) (hn : writesStack i = false) : kept .faultRecord s t := by
  cases h with
  | error _ _ hw => simp [hw] at hn
  | _ => exact kept_refl .faultRecord s

theorem kept_index (h : Effect i s t) (hn : writesIndex i = false) : kept .index s t := by
  cases h with
  | index _ hw => simp [hw] at hn
  | _ => rfl

theorem kept_dt (h : Effect i s t) (hn : ∀ x, i ≠ .ldDTVx x) : kept .dt s t := by
  cases h with
  | delayTimer x hi => exact absurd hi (hn x)
  | _ => rfl

theorem kept_st (h : Effect i s t) (hn : ∀ x, i ≠ .ldSTVx x) : kept .st s t := by
  cases h with
  | soundTimer x hi => exact absurd hi (hn x)
  | _ => rfl

theorem kept_draws (h : Effect i s t) (hn : ∀ x nn, i ≠ .rnd x nn) : kept .draws s t := by
  cases h with
  | random x nn _ hi => exact absurd hi (hn x nn)
  | _ => rfl

theorem kept_keys (h : Effect i s t) : kept .keys s t := by
  cases h with
  | _ => exact kept_refl .keys s

theorem kept_events (h : Effect i s t) : kept .events s t := by
  cases h with
  | _ => rfl

theorem kept_loadError (h : Effect i s t) : kept .loadError s t := by
  cases h with
  | _ => rfl

/-- A register that the effect does not name reads as before. -/
theorem getV_eq (h : Effect i s t) {r : Nibble} (hd : destination i ≠ some r) (hf : ¬(writesFlag i = true ∧ r = vf))
    (hl : loadsFromMemory i r = false) : getV t r = getV s r := by
  have ne_of_dest {x : Nibble} (hx : destination i = some x) : r ≠ x := fun e => hd (by rw [hx, e])
  cases h with
  | register x b hx => exact getV_setV_of_ne _ (ne_of_dest hx) b
  | result x b c hx hw =>
    rw [getV_writeResultFlag, if_neg fun e => hf ⟨hw, e⟩, if_neg (ne_of_dest hx), getV_advance]
  | random x nn draw hi => exact getV_setV_of_ne _ (ne_of_dest (by rw [hi]; rfl)) _
  | registers v hv => exact hv r hl
  | displayFlag fb c _ hw => exact getV_writeFlag_of_ne _ (fun e => hf ⟨hw, e⟩) c
  | _ => rfl

end Effect

/-- Settles O57: the effect of the instruction, part by part, and the flag from its last write. -/
theorem onlyListedInstructionsWrite : Obligations.OnlyListedInstructionsWrite := by
  intro i s t h
  have he := effect_of_exec h
  refine ⟨he.kept_fb, he.kept_mem, fun hn => ⟨he.kept_stack hn, he.kept_faultRecord hn⟩, he.kept_index, he.kept_dt,
    he.kept_st, he.kept_draws, fun r => he.getV_eq, fun hw => ?_, he.kept_keys, he.kept_events, he.kept_loadError⟩
  obtain ⟨u, c, hu⟩ := exec_of_writesFlag hw s
  rw [h] at hu
  cases hu
  rw [show (15 : Nibble) = vf from rfl, getV_writeFlag_vf]
  exact flagByte_cases c

end Sys2Proof.Machine
end

section
/-! The invariant of 10_state.md R41: I stays below 4096 and memory keeps its canonical form (log 23). It holds at reset, every
effect of an instruction keeps it, and so does every event. -/

namespace Sys2Proof.Machine

theorem inv_iff (s : State) : Safety.inv s = true ↔ s.i.toNat < 4096 ∧ s.mem.wf = true := by simp [Safety.inv]

theorem Effect.keeps_inv {i : Instr} {s t : State} (h : Effect i s t) (hs : Safety.inv s = true) : Safety.inv t = true := by
  rw [inv_iff] at hs ⊢
  obtain ⟨hi, hm⟩ := hs
  cases h with
  | index a _ ha => exact ⟨ha, hm⟩
  | memory m _ hwf => exact ⟨hi, hwf hm⟩
  | _ => exact ⟨hi, hm⟩

/-- A cycle leaves the state, writes the fault record, or has the effect of an instruction. -/
theorem cycle_keeps_inv {s t : State} (hs : Safety.inv s = true) (h : cycle s = .next t) : Safety.inv t = true := by
  obtain ⟨-, hc⟩ | ⟨-, op, -, hc⟩ | ⟨-, i, -, hc⟩ := cycle_cases s
  · rw [hc] at h
    cases h
    exact hs
  · rw [hc] at h
    cases h
    exact hs
  · exact (effect_of_exec (hc ▸ h)).keeps_inv hs

/-- Settles O56: the base case of the invariant, by the values of I, memory and FAULT at reset. -/
theorem invariantsHoldAtReset : Obligations.InvariantsHoldAtReset :=
  ⟨(inv_iff State.reset).mpr ⟨by decide, memory_nil_wf⟩, rfl⟩

theorem applyEvent_keeps_inv {e : Event} {s t : State} (hs : Safety.inv s = true) (h : applyEvent e s = .next t) :
    Safety.inv t = true := by
  cases e with
  | cycle => exact cycle_keeps_inv hs h
  | tick =>
    cases h
    rw [tick_eq]
    exact hs
  | keySet k b =>
    cases h
    rw [keySet_eq]
    exact hs
  | reset =>
    cases h
    exact invariantsHoldAtReset.1
  | load start bytes =>
    obtain ⟨m, r, rfl, hwf⟩ := loadEvent_writes h
    rw [inv_iff] at hs ⊢
    exact ⟨hs.1, hwf hs.2⟩

/-- Settles O54: a step is a cycle or applies an event, and both keep the invariant. -/
theorem invariantKeptByEveryStep : Obligations.InvariantKeptByEveryStep := by
  intro s t hs h
  cases he : s.events with
  | nil => exact cycle_keeps_inv hs (step_of_no_event he ▸ h)
  | cons e es => exact applyEvent_keeps_inv (s := { s with events := es }) hs (step_of_event he ▸ h)

end Sys2Proof.Machine
end

section
/-! Memory as seen from outside (20_memory.md): the opcode fetch (R63, R91), one read and one write (R61, R74), a store over the
next instruction (R70), and the host's block copy (R72). -/

namespace Sys2Proof.Machine

open Claim

/-! ### The fetch -/

/-- The opcode as a number, through the memory operation, whose addresses are reduced. -/
theorem toNat_fetchWord (s : State) :
    (fetchWord s).toNat = (memRead s s.pc.toNat).toNat * 256 + (memRead s (s.pc.toNat + 1)).toNat :=
  toNat_wordOfBytes _ _

/-- Settles O6: the number two big-endian bytes spell; that the two addresses are reduced is the definition of a read. -/
theorem fetchIsBigEndian : Obligations.FetchIsBigEndian := toNat_fetchWord

/-! ### One read and one write -/

/-- Addresses that agree mod 4096 name the same byte (R61). -/
theorem memRead_congr {a k : Nat} (h : wrapAddr a = wrapAddr k) (s : State) : memRead s a = memRead s k := by
  rw [memRead, memRead, h]

/-- New memory contents are a change of memory alone. -/
theorem keptBut_mem (s : State) (m : Memory) : keptBut [.mem] s { s with mem := m } := by
  intro p hp
  have h := kept_refl p s
  cases p with
  | mem => simp at hp
  | _ => exact h

/-- Settles O34: the reduction done twice is the reduction done once, and a read after a write is decided by whether the reduced
addresses agree. -/
theorem memoryWrapsAndHolds : Obligations.MemoryWrapsAndHolds := by
  intro s a k b
  refine ⟨memRead_congr (Nat.mod_mod a memSize).symm s, fun h => ?_, fun h => ?_, keptBut_mem s _⟩
  · rw [memRead_memWrite]
    exact if_pos h
  · rw [memRead_memWrite]
    exact if_neg h

/-! ### A store over the next instruction -/

/-- `Fx55` with the default dialect is the transfer alone: I stays (D8, log 4). -/
theorem exec_ldMemVx (x : Nibble) (s : State) :
    exec (.ldMemVx x) s = .next (storeBytes (advance s) s.i.toNat (regsUpTo s x)) := rfl

@[simp] theorem storeBytes_pc (s : State) (a : Nat) (bs : List Byte) : (storeBytes s a bs).pc = s.pc := by
  rw [storeBytes_eq]

/-- `V[k]`, for `k` up to `x`, stands at the `k`-th address of a transfer of V0 to Vx (43_index_memory.md R164). The transfer is
of at most 16 bytes, so it cannot lap the address space. -/
theorem memRead_storeBytes_regsUpTo (s u : State) (a : Nat) {x : Nibble} {k : Nat} (hk : k ≤ x.toNat) :
    memRead (storeBytes u a (regsUpTo s x)) (a + k) = getV s (BitVec.ofNat 4 k) := by
  have hx := x.isLt
  have hlap : (regsUpTo s x).length ≤ memSize := by
    simp only [length_regsUpTo, memSize]
    omega
  have hin : k < (regsUpTo s x).length := by
    simp only [length_regsUpTo]
    omega
  rw [memRead_storeBytes_inside _ u a k hlap hin, getElem_regsUpTo]

/-- Settles O42: PC after the store is the I it stored at, so the fetch reads the places of V0 and V1. -/
theorem storeIsSeenByNextFetch : Obligations.StoreIsSeenByNextFetch := by
  intro x s hx hi
  refine ⟨_, exec_ldMemVx x s, ?_⟩
  have hpc : (advance s).pc = s.i := hi.symm
  have h0 := memRead_storeBytes_regsUpTo s (advance s) s.i.toNat (Nat.zero_le x.toNat)
  have h1 := memRead_storeBytes_regsUpTo s (advance s) s.i.toNat hx
  rw [Nat.add_zero] at h0
  rw [toNat_fetchWord, storeBytes_pc, hpc, h0, h1]
  rfl

/-! ### The host's block copy -/

/-- A part that is kept may be dropped from the head of the exceptions. -/
theorem keptBut_of_cons {p : Part} {ps : List Part} {s t : State} (h : keptBut (p :: ps) s t) (hp : kept p s t) :
    keptBut ps s t := by
  intro q hq
  by_cases e : q = p
  · rw [e]
    exact hp
  · exact h q (by simp [e, hq])

/-- What taking a `Load` from the list and applying it may write: memory, the list of events and the report to the host. -/
theorem keptBut_mem_events_loadError (s : State) (m : Memory) (es : List Event) (r : Option LoadError) :
    keptBut [.mem, .events, .loadError] s { s with mem := m, events := es, loadError := r } := by
  intro p hp
  have h := kept_refl p s
  cases p with
  | mem => simp at hp
  | events => simp at hp
  | loadError => simp at hp
  | _ => exact h

section
variable {s : State} {start : Nat} {bytes : List Byte}

theorem loadEvent_of_le (hf : frozen s = false) (hstart : start < memSize) (h : start + bytes.length ≤ memSize) :
    loadEvent start bytes s = .next { storeBytes s start bytes with loadError := none } := by
  simp [loadEvent, hf, Nat.not_le.mpr hstart, Nat.not_lt.mpr h]

theorem loadEvent_of_lt (hf : frozen s = false) (hstart : start < memSize) (h : memSize < start + bytes.length) :
    loadEvent start bytes s = .next { s with loadError := some .romTooLarge } := by
  simp [loadEvent, hf, Nat.not_le.mpr hstart, h]

/-- A transfer that ends inside memory stores its bytes verbatim. -/
theorem getElem?_eq_memRead_storeBytes (h : start + bytes.length ≤ memSize) {j : Nat} (hj : j < bytes.length) :
    bytes[j]? = some (memRead (storeBytes s start bytes) (start + j)) := by
  rw [memRead_storeBytes_inside bytes s start j (by omega) hj]
  exact List.getElem?_eq_getElem hj

/-- A transfer that ends inside memory does not wrap, so it leaves every byte below its start and from its end on. -/
theorem memRead_storeBytes_of_outside (h : start + bytes.length ≤ memSize) {a : Nat} (ha : a < memSize)
    (hout : a < start ∨ start + bytes.length ≤ a) : memRead (storeBytes s start bytes) a = memRead s a := by
  refine memRead_storeBytes_outside bytes s start a fun j hj => ?_
  have hin : start + j < memSize := by omega
  rw [wrapAddr, wrapAddr, Nat.mod_eq_of_lt ha, Nat.mod_eq_of_lt hin]
  omega

end

/-- Settles O53: by the two sides of the length check of a load. -/
theorem loadIsWholeOrRefused : Obligations.LoadIsWholeOrRefused := by
  intro s start bytes es hf hstart hs
  have hstep := step_of_event hs
  by_cases h : start + bytes.length ≤ memSize
  · rw [applyEvent, loadEvent_of_le (s := { s with events := es }) hf hstart h, storeBytes_eq] at hstep
    refine ⟨_, hstep, rfl, fun _ => ⟨fun j hj => ?_, fun a ha hout => ?_, rfl, ?_⟩,
      fun hlong => absurd h (Nat.not_le.mpr hlong)⟩
    · exact getElem?_eq_memRead_storeBytes h hj
    · exact memRead_storeBytes_of_outside (s := { s with events := es }) h ha hout
    · exact keptBut_mem_events_loadError s _ es none
  · have hlong := Nat.not_le.mp h
    rw [applyEvent, loadEvent_of_lt (s := { s with events := es }) hf hstart hlong] at hstep
    refine ⟨_, hstep, rfl, fun hle => absurd hle h, fun _ => ⟨rfl, ?_⟩⟩
    exact keptBut_of_cons (keptBut_mem_events_loadError s s.mem es (some .romTooLarge)) (kept_refl .mem s)

end Sys2Proof.Machine
end

section
/-! Decode and encode against each other (30_encoding.md R93, R95): decode after encode, what a verdict of decode says about its
word, and the six undefined families (R97) in terms of the fields decode reads. -/

namespace Sys2Proof

/-! ### Decode after encode -/

/-- Decoding the word of an instruction gives it back: each field of the word is the operand put there. -/
theorem decode_encode (i : Instr) : decode (encode i) = .instruction i := by
  cases i with
  | cls => rfl
  | ret => rfl
  | _ => simp [encode, decode, decode8, decodeE, decodeF]

/-- No two instructions have one word. -/
theorem encode_injective : Function.Injective encode := fun i j h => by
  have hd := decode_encode i
  rw [h, decode_encode] at hd
  cases hd
  rfl

/-- Settles O1: a word read from its own two bytes is the word, so both forms are `decode_encode`. -/
theorem encodeThenDecodeGivesInstruction : Obligations.EncodeThenDecodeGivesInstruction := fun i =>
  ⟨decode_encode i, by rw [decodeBytes, wordOfBytes_high_low, decode_encode]⟩

/-! ### The undefined families by their fields -/

theorem toNat_and_F000 (op : Word) : (op &&& 0xF000).toNat = (fieldT op).toNat * 4096 := by
  conv_lhs => rw [← append_fields_nnn op, Laws.EncodesToItsRow.and_family_nnn]
  rw [BitVec.toNat_append, Nat.shiftLeft_eq]
  exact Nat.or_zero _

theorem toNat_and_000F (op : Word) : (op &&& 0x000F).toNat = (fieldN op).toNat := by
  simpa [fieldN] using Nat.and_two_pow_sub_one_eq_mod op.toNat 4

theorem toNat_and_00FF (op : Word) : (op &&& 0x00FF).toNat = (fieldNN op).toNat := by
  simpa [fieldNN] using Nat.and_two_pow_sub_one_eq_mod op.toNat 8

theorem and_F000_eq_iff (op : Word) (t : Nibble) : op &&& 0xF000 = t ++ 0#12 ↔ (fieldT op).toNat = t.toNat := by
  rw [← BitVec.toNat_inj, toNat_and_F000, BitVec.toNat_append, Nat.shiftLeft_eq]
  simp

theorem and_000F_eq_iff (op v : Word) : op &&& 0x000F = v ↔ (fieldN op).toNat = v.toNat := by
  rw [← BitVec.toNat_inj, toNat_and_000F]

theorem and_00FF_eq_iff (op v : Word) : op &&& 0x00FF = v ↔ (fieldNN op).toNat = v.toNat := by
  rw [← BitVec.toNat_inj, toNat_and_00FF]

theorem undefined0_iff (op : Word) : undefined0 op = true ↔ (fieldT op).toNat = 0 ∧ op ≠ 0x00E0 ∧ op ≠ 0x00EE := by
  simp only [undefined0, Bool.and_eq_true, beq_iff_eq, bne_iff_ne, and_assoc]
  exact and_congr_left' (and_F000_eq_iff op 0)

theorem undefined5_iff (op : Word) : undefined5 op = true ↔ (fieldT op).toNat = 5 ∧ (fieldN op).toNat ≠ 0 := by
  simp only [undefined5, Bool.and_eq_true, beq_iff_eq, bne_iff_ne, ne_eq, and_000F_eq_iff]
  exact and_congr_left' (and_F000_eq_iff op 5)

theorem undefined8_iff (op : Word) :
    undefined8 op = true ↔ (fieldT op).toNat = 8 ∧ 8 ≤ (fieldN op).toNat ∧ (fieldN op).toNat ≠ 14 := by
  simp only [undefined8, Bool.and_eq_true, beq_iff_eq, bne_iff_ne, ne_eq, and_000F_eq_iff, decide_eq_true_eq, BitVec.le_def,
    toNat_and_000F, and_assoc]
  exact and_congr_left' (and_F000_eq_iff op 8)

theorem undefined9_iff (op : Word) : undefined9 op = true ↔ (fieldT op).toNat = 9 ∧ (fieldN op).toNat ≠ 0 := by
  simp only [undefined9, Bool.and_eq_true, beq_iff_eq, bne_iff_ne, ne_eq, and_000F_eq_iff]
  exact and_congr_left' (and_F000_eq_iff op 9)

theorem undefinedE_iff (op : Word) :
    undefinedE op = true ↔ (fieldT op).toNat = 14 ∧ (fieldNN op).toNat ≠ 0x9E ∧ (fieldNN op).toNat ≠ 0xA1 := by
  simp only [undefinedE, Bool.and_eq_true, beq_iff_eq, bne_iff_ne, ne_eq, and_00FF_eq_iff, and_assoc]
  exact and_congr_left' (and_F000_eq_iff op 14)

theorem undefinedF_iff (op : Word) :
    undefinedF op = true ↔ (fieldT op).toNat = 15 ∧ (fieldNN op).toNat ≠ 0x07 ∧ (fieldNN op).toNat ≠ 0x0A ∧
      (fieldNN op).toNat ≠ 0x15 ∧ (fieldNN op).toNat ≠ 0x18 ∧ (fieldNN op).toNat ≠ 0x1E ∧ (fieldNN op).toNat ≠ 0x29 ∧
      (fieldNN op).toNat ≠ 0x33 ∧ (fieldNN op).toNat ≠ 0x55 ∧ (fieldNN op).toNat ≠ 0x65 := by
  simp only [undefinedF, Bool.and_eq_true, beq_iff_eq, Bool.not_eq_true', ← Bool.not_eq_true, List.contains_iff_mem,
    List.mem_cons, List.not_mem_nil, or_false, not_or, and_00FF_eq_iff]
  exact and_congr_left' (and_F000_eq_iff op 15)

/-- The word of an instruction is in no undefined family. -/
theorem wellFormedWord_encode (i : Instr) : wellFormedWord (encode i) = true := by
  rw [← Bool.not_eq_false]
  simp only [wellFormedWord, Bool.not_eq_false', Bool.or_eq_true, undefined0_iff, undefined5_iff, undefined8_iff,
    undefined9_iff, undefinedE_iff, undefinedF_iff]
  cases i with
  | cls => decide
  | ret => decide
  | _ => simp [encode]

/-! ### A word from its matched fields -/

section
variable {op : Word}

theorem append_nnn_eq {t : Nibble} (ht : (fieldT op).toNat = t.toNat) : (t ++ fieldNNN op : Word) = op := by
  rw [← BitVec.eq_of_toNat_eq ht, append_fields_nnn]

theorem append_nn_eq {t : Nibble} (ht : (fieldT op).toNat = t.toNat) : (t ++ fieldX op ++ fieldNN op : Word) = op := by
  rw [← BitVec.eq_of_toNat_eq ht, append_fields_nn]

theorem append_xyn_eq {t : Nibble} (ht : (fieldT op).toNat = t.toNat) :
    (t ++ fieldX op ++ fieldY op ++ fieldN op : Word) = op := by
  rw [← BitVec.eq_of_toNat_eq ht, append_fields_xyn]

theorem append_xy_eq {t n : Nibble} (ht : (fieldT op).toNat = t.toNat) (hn : (fieldN op).toNat = n.toNat) :
    (t ++ fieldX op ++ fieldY op ++ n : Word) = op := by
  rw [← BitVec.eq_of_toNat_eq hn, append_xyn_eq ht]

theorem append_x_eq {t : Nibble} {nn : Byte} (ht : (fieldT op).toNat = t.toNat) (hn : (fieldNN op).toNat = nn.toNat) :
    (t ++ fieldX op ++ nn : Word) = op := by
  rw [← BitVec.eq_of_toNat_eq hn, append_nn_eq ht]

end

/-! ### What a verdict says about its word -/

/-- The verdict is right about `op`: it is the instruction whose word is `op`, or UnknownOpcode with `op` itself, in an
undefined family. -/
def Verdict.RightFor (op : Word) : Verdict → Prop
  | .instruction i => encode i = op
  | .unknownOpcode op' => op' = op ∧ wellFormedWord op = false

section
variable {op : Word}

theorem decode0_rightFor (ht : (fieldT op).toNat = 0) : (decode0 op).RightFor op := by
  unfold decode0
  split
  · next hop => exact hop.symm
  · split
    · next hop => exact hop.symm
    · next hE0 hEE =>
      have hu := (undefined0_iff op).mpr ⟨ht, hE0, hEE⟩
      exact ⟨rfl, by simp [wellFormedWord, hu]⟩

theorem decode8_rightFor (ht : (fieldT op).toNat = 8) : (decode8 op).RightFor op := by
  unfold decode8
  split
  case h_10 h0 h1 h2 h3 h4 h5 h6 h7 hE =>
    simp only [imp_false] at h0 h1 h2 h3 h4 h5 h6 h7
    have hu := (undefined8_iff op).mpr ⟨ht, by omega, hE⟩
    exact ⟨rfl, by simp [wellFormedWord, hu]⟩
  all_goals
    next hn => exact append_xy_eq ht hn

theorem decodeE_rightFor (ht : (fieldT op).toNat = 14) : (decodeE op).RightFor op := by
  unfold decodeE
  split
  · next hnn => exact append_x_eq ht hnn
  · next hnn => exact append_x_eq ht hnn
  · next h9E hA1 =>
    have hu := (undefinedE_iff op).mpr ⟨ht, h9E, hA1⟩
    exact ⟨rfl, by simp [wellFormedWord, hu]⟩

theorem decodeF_rightFor (ht : (fieldT op).toNat = 15) : (decodeF op).RightFor op := by
  unfold decodeF
  split
  case h_10 h07 h0A h15 h18 h1E h29 h33 h55 h65 =>
    have hu := (undefinedF_iff op).mpr ⟨ht, h07, h0A, h15, h18, h1E, h29, h33, h55, h65⟩
    exact ⟨rfl, by simp [wellFormedWord, hu]⟩
  all_goals
    next hnn => exact append_x_eq ht hnn

end

/-- Decode is right about every word: one case per family, in the order of R95. -/
theorem decode_rightFor (op : Word) : (decode op).RightFor op := by
  unfold decode
  split
  · next ht => exact decode0_rightFor ht
  · next ht => exact append_nnn_eq ht
  · next ht => exact append_nnn_eq ht
  · next ht => exact append_nn_eq ht
  · next ht => exact append_nn_eq ht
  · next ht =>
    split
    · next hn => exact append_xy_eq ht (congrArg BitVec.toNat hn)
    · next hn =>
      have hu := (undefined5_iff op).mpr ⟨ht, BitVec.toNat_ne_iff_ne.mpr hn⟩
      exact ⟨rfl, by simp [wellFormedWord, hu]⟩
  · next ht => exact append_nn_eq ht
  · next ht => exact append_nn_eq ht
  · next ht => exact decode8_rightFor ht
  · next ht =>
    split
    · next hn => exact append_xy_eq ht (congrArg BitVec.toNat hn)
    · next hn =>
      have hu := (undefined9_iff op).mpr ⟨ht, BitVec.toNat_ne_iff_ne.mpr hn⟩
      exact ⟨rfl, by simp [wellFormedWord, hu]⟩
  · next ht => exact append_nnn_eq ht
  · next ht => exact append_nnn_eq ht
  · next ht => exact append_nn_eq ht
  · next ht => exact append_xyn_eq ht
  · next ht => exact decodeE_rightFor ht
  · next h0 h1 h2 h3 h4 h5 h6 h7 h8 h9 hA hB hC hD hE =>
    simp only [imp_false] at h0 h1 h2 h3 h4 h5 h6 h7 h8 h9 hA hB hC hD hE
    exact decodeF_rightFor (by omega)

theorem encode_of_decode {op : Word} {i : Instr} (h : decode op = .instruction i) : encode i = op := by
  have hright := decode_rightFor op
  rwa [h] at hright

theorem undefined_of_decode {op op' : Word} (h : decode op = .unknownOpcode op') : op' = op ∧ wellFormedWord op = false := by
  have hright := decode_rightFor op
  rwa [h] at hright

/-- Settles O2: the half of `decode_rightFor` about instructions. -/
theorem decodeThenEncodeGivesWord : Obligations.DecodeThenEncodeGivesWord := fun _ _ => encode_of_decode

/-- Settles O4: by the verdict. An instruction's word is well formed, and UnknownOpcode is answered in a family of R97 only. -/
theorem undefinedWordsAreTheSixFamilies : Obligations.UndefinedWordsAreTheSixFamilies := by
  intro op
  cases hd : decode op with
  | instruction i =>
    have hwf := wellFormedWord_encode i
    rw [encode_of_decode hd] at hwf
    simp [hwf]
  | unknownOpcode op' =>
    obtain ⟨rfl, hwf⟩ := undefined_of_decode hd
    simp [hwf]

/-- Settles O5: eighteen closed decodings and one refusal, each evaluated. -/
theorem sampleWordsDecode : Obligations.SampleWordsDecode := by
  unfold Obligations.SampleWordsDecode
  decide

end Sys2Proof
end

section
/-! The decode procedure against the mask-and-match map (30_encoding.md R98): a row is selected exactly by the words of its own
instructions. -/

namespace Sys2Proof

section
variable {op : Word}

theorem eq_of_selects {r : OpcodeRow} (h : r.selects op = true) : op &&& r.mask = r.value := by
  simpa [OpcodeRow.selects] using h

/-- A row with the mask `F000` is selected by the family alone. -/
theorem fieldT_of_selects {p : String} {t : Nibble} (h : (OpcodeRow.mk p 0xF000 (t ++ 0#12)).selects op = true) :
    (fieldT op).toNat = t.toNat :=
  (and_F000_eq_iff op t).mp (eq_of_selects h)

/-- A word that selects a row with the mask `F00F` is the row's two digits around its own `x` and `y`. -/
theorem append_xy_eq_of_selects {p : String} {t n : Nibble}
    (h : (OpcodeRow.mk p 0xF00F (t ++ 0#4 ++ 0#4 ++ n)).selects op = true) : (t ++ fieldX op ++ fieldY op ++ n : Word) = op := by
  have hw : op &&& 0xF00F = t ++ 0#4 ++ 0#4 ++ n := eq_of_selects h
  rw [← append_fields_xyn op, Laws.EncodesToItsRow.and_ends] at hw
  apply append_xy_eq
  · simpa using congrArg (fun w => (fieldT w).toNat) hw
  · simpa using congrArg (fun w => (fieldN w).toNat) hw

/-- A word that selects a row with the mask `F0FF` is the row's digit and byte around its own `x`. -/
theorem append_x_eq_of_selects {p : String} {t : Nibble} {nn : Byte}
    (h : (OpcodeRow.mk p 0xF0FF (t ++ 0#4 ++ nn)).selects op = true) : (t ++ fieldX op ++ nn : Word) = op := by
  have hw : op &&& 0xF0FF = t ++ 0#4 ++ nn := eq_of_selects h
  rw [← append_fields_nn op, Laws.EncodesToItsRow.and_sub] at hw
  apply append_x_eq
  · simpa using congrArg (fun w => (fieldT w).toNat) hw
  · simpa using congrArg (fun w => (fieldNN w).toNat) hw

/-- A row with the mask `FFFF` is selected by its one word. -/
theorem eq_of_selects_FFFF {p : String} {v : Word} (h : (OpcodeRow.mk p 0xFFFF v).selects op = true) : op = v :=
  BitVec.and_allOnes.symm.trans (eq_of_selects h)

/-- A word that selects the row of an instruction is the word of an instruction of that row. -/
theorem exists_encode_of_selects {j : Instr} (h : j.row.selects op = true) : ∃ i, i.row = j.row ∧ encode i = op := by
  cases j with
  | cls => exact ⟨.cls, rfl, (eq_of_selects_FFFF h).symm⟩
  | ret => exact ⟨.ret, rfl, (eq_of_selects_FFFF h).symm⟩
  | jp _ => exact ⟨.jp (fieldNNN op), rfl, append_nnn_eq (fieldT_of_selects h)⟩
  | call _ => exact ⟨.call (fieldNNN op), rfl, append_nnn_eq (fieldT_of_selects h)⟩
  | seByte _ _ => exact ⟨.seByte (fieldX op) (fieldNN op), rfl, append_nn_eq (fieldT_of_selects h)⟩
  | sneByte _ _ => exact ⟨.sneByte (fieldX op) (fieldNN op), rfl, append_nn_eq (fieldT_of_selects h)⟩
  | seReg _ _ => exact ⟨.seReg (fieldX op) (fieldY op), rfl, append_xy_eq_of_selects h⟩
  | ldByte _ _ => exact ⟨.ldByte (fieldX op) (fieldNN op), rfl, append_nn_eq (fieldT_of_selects h)⟩
  | addByte _ _ => exact ⟨.addByte (fieldX op) (fieldNN op), rfl, append_nn_eq (fieldT_of_selects h)⟩
  | ldReg _ _ => exact ⟨.ldReg (fieldX op) (fieldY op), rfl, append_xy_eq_of_selects h⟩
  | orReg _ _ => exact ⟨.orReg (fieldX op) (fieldY op), rfl, append_xy_eq_of_selects h⟩
  | andReg _ _ => exact ⟨.andReg (fieldX op) (fieldY op), rfl, append_xy_eq_of_selects h⟩
  | xorReg _ _ => exact ⟨.xorReg (fieldX op) (fieldY op), rfl, append_xy_eq_of_selects h⟩
  | addReg _ _ => exact ⟨.addReg (fieldX op) (fieldY op), rfl, append_xy_eq_of_selects h⟩
  | subReg _ _ => exact ⟨.subReg (fieldX op) (fieldY op), rfl, append_xy_eq_of_selects h⟩
  | shr _ _ => exact ⟨.shr (fieldX op) (fieldY op), rfl, append_xy_eq_of_selects h⟩
  | subnReg _ _ => exact ⟨.subnReg (fieldX op) (fieldY op), rfl, append_xy_eq_of_selects h⟩
  | shl _ _ => exact ⟨.shl (fieldX op) (fieldY op), rfl, append_xy_eq_of_selects h⟩
  | sneReg _ _ => exact ⟨.sneReg (fieldX op) (fieldY op), rfl, append_xy_eq_of_selects h⟩
  | ldI _ => exact ⟨.ldI (fieldNNN op), rfl, append_nnn_eq (fieldT_of_selects h)⟩
  | jpV0 _ => exact ⟨.jpV0 (fieldNNN op), rfl, append_nnn_eq (fieldT_of_selects h)⟩
  | rnd _ _ => exact ⟨.rnd (fieldX op) (fieldNN op), rfl, append_nn_eq (fieldT_of_selects h)⟩
  | drw _ _ _ => exact ⟨.drw (fieldX op) (fieldY op) (fieldN op), rfl, append_xyn_eq (fieldT_of_selects h)⟩
  | skp _ => exact ⟨.skp (fieldX op), rfl, append_x_eq_of_selects h⟩
  | sknp _ => exact ⟨.sknp (fieldX op), rfl, append_x_eq_of_selects h⟩
  | ldVxDT _ => exact ⟨.ldVxDT (fieldX op), rfl, append_x_eq_of_selects h⟩
  | ldVxK _ => exact ⟨.ldVxK (fieldX op), rfl, append_x_eq_of_selects h⟩
  | ldDTVx _ => exact ⟨.ldDTVx (fieldX op), rfl, append_x_eq_of_selects h⟩
  | ldSTVx _ => exact ⟨.ldSTVx (fieldX op), rfl, append_x_eq_of_selects h⟩
  | addI _ => exact ⟨.addI (fieldX op), rfl, append_x_eq_of_selects h⟩
  | ldF _ => exact ⟨.ldF (fieldX op), rfl, append_x_eq_of_selects h⟩
  | ldB _ => exact ⟨.ldB (fieldX op), rfl, append_x_eq_of_selects h⟩
  | ldMemVx _ => exact ⟨.ldMemVx (fieldX op), rfl, append_x_eq_of_selects h⟩
  | ldVxMem _ => exact ⟨.ldVxMem (fieldX op), rfl, append_x_eq_of_selects h⟩

end

/-- The per-instruction statements of `Laws.EncodesToItsRow`, together. -/
theorem encodesToItsRow (i : Instr) : Laws.EncodesToItsRow.Statement i :=
  open Laws.EncodesToItsRow in
  match i with
  | .cls => cls
  | .ret => ret
  | .jp nnn => jp nnn
  | .call nnn => call nnn
  | .seByte x nn => seByte x nn
  | .sneByte x nn => sneByte x nn
  | .seReg x y => seReg x y
  | .ldByte x nn => ldByte x nn
  | .addByte x nn => addByte x nn
  | .ldReg x y => ldReg x y
  | .orReg x y => orReg x y
  | .andReg x y => andReg x y
  | .xorReg x y => xorReg x y
  | .addReg x y => addReg x y
  | .subReg x y => subReg x y
  | .shr x y => shr x y
  | .subnReg x y => subnReg x y
  | .shl x y => shl x y
  | .sneReg x y => sneReg x y
  | .ldI nnn => ldI nnn
  | .jpV0 nnn => jpV0 nnn
  | .rnd x nn => rnd x nn
  | .drw x y n => drw x y n
  | .skp x => skp x
  | .sknp x => sknp x
  | .ldVxDT x => ldVxDT x
  | .ldVxK x => ldVxK x
  | .ldDTVx x => ldDTVx x
  | .ldSTVx x => ldSTVx x
  | .addI x => addI x
  | .ldF x => ldF x
  | .ldB x => ldB x
  | .ldMemVx x => ldMemVx x
  | .ldVxMem x => ldVxMem x

theorem exists_row_of_mem_opcodeTable : ∀ r ∈ opcodeTable, ∃ j : Instr, j.row = r := by simp [opcodeTable]

/-- The word of an instruction selects that instruction's row and no other. -/
theorem selects_encode_iff {r : OpcodeRow} (hr : r ∈ opcodeTable) (i : Instr) : r.selects (encode i) = true ↔ r = i.row := by
  constructor
  · intro h
    obtain ⟨j, rfl⟩ := exists_row_of_mem_opcodeTable r hr
    obtain ⟨k, hrow, hk⟩ := exists_encode_of_selects h
    rw [← hrow, encode_injective hk]
  · rintro rfl
    exact (encodesToItsRow i).1

/-- Settles O3: a decoded word is the word of its instruction, and a word that selects a row is the word of some instruction,
which decodes. -/
theorem decodeAgreesWithOpcodeMap : Obligations.DecodeAgreesWithOpcodeMap := by
  intro op
  refine ⟨fun i hd r hr => ?_, fun i _ => (encodesToItsRow i).2, ?_, fun hnone => ?_⟩
  · rw [← encode_of_decode hd]
    exact selects_encode_iff hr i
  · rintro ⟨op', hd⟩ r hr
    rw [Bool.eq_false_iff]
    intro hsel
    obtain ⟨j, rfl⟩ := exists_row_of_mem_opcodeTable r hr
    obtain ⟨i, -, rfl⟩ := exists_encode_of_selects hsel
    rw [decode_encode] at hd
    cases hd
  · cases hd : decode op with
    | unknownOpcode op' => exact ⟨op', rfl⟩
    | instruction i =>
      obtain ⟨hsel, hmem⟩ := encodesToItsRow i
      rw [encode_of_decode hd, hnone _ hmem] at hsel
      cases hsel

end Sys2Proof
end

section
/-! What a cycle does with the verdict of decode (30_encoding.md R101; 60_exceptions.md R201, R204), with no event waiting and
with a `Cycle` event waiting (log 1). -/

namespace Sys2Proof.Machine

open Claim

theorem cycle_of_instruction {s : State} {i : Instr} (hf : frozen s = false) (hd : decode (fetchWord s) = .instruction i) :
    cycle s = exec i s := by
  simp [cycle, hf, hd]

/-- A word of an undefined family makes a cycle raise UnknownOpcode with that word. -/
theorem cycle_of_undefined {s : State} (hf : frozen s = false) (hwf : wellFormedWord (fetchWord s) = false) :
    cycle s = .next (raise s .unknownOpcode (fetchWord s)) := by
  obtain ⟨hundefined, -⟩ := undefinedWordsAreTheSixFamilies (fetchWord s)
  simp [cycle, hf, hundefined.mp hwf]

/-- Settles O7: both kinds of step are a cycle, and the list of events is no part of what a cycle fetches. -/
theorem stepRunsDecodedInstruction : Obligations.StepRunsDecodedInstruction := by
  intro s i hf hd
  refine ⟨fun hs => ?_, fun es hs => ?_⟩
  · rw [step_of_no_event hs, cycle_of_instruction hf hd]
  · rw [step_of_event hs]
    exact cycle_of_instruction (s := { s with events := es }) hf hd

/-- More exceptions make a weaker frame. -/
theorem keptBut_of_subset {ps qs : List Part} {s t : State} (hsub : ps ⊆ qs) (h : keptBut ps s t) : keptBut qs s t :=
  fun p hp => h p fun hm => hp (hsub hm)

/-- What taking an event from the list and raising an error may write. -/
theorem keptBut_events_faultRecord (s : State) (es : List Event) (e : FaultCode) (op : Word) :
    keptBut [.events, .faultRecord] s (raise { s with events := es } e op) := by
  intro p hp
  have h := kept_refl p s
  cases p with
  | events => simp at hp
  | faultRecord => simp at hp
  | _ => exact h

/-- Settles O8: a step is a cycle, which raises UnknownOpcode, and `raise` writes the record alone. -/
theorem undefinedWordRaisesUnknownOpcode : Obligations.UndefinedWordRaisesUnknownOpcode := by
  intro s hf hwf
  refine ⟨fun hs => ?_, fun es hs => ?_⟩
  · refine ⟨_, (step_of_no_event hs).trans (cycle_of_undefined hf hwf), rfl, rfl, rfl, ?_⟩
    exact keptBut_of_cons (keptBut_events_faultRecord s s.events _ _) rfl
  · refine ⟨_, (step_of_event hs).trans (cycle_of_undefined (s := { s with events := es }) hf hwf), rfl, rfl, rfl, rfl, ?_⟩
    exact keptBut_of_subset (by simp) (keptBut_events_faultRecord s es _ _)

end Sys2Proof.Machine
end

section
/-! Control transfer (40_flow.md): the two jumps (R121, R123), and the call and the return (R122, R120), whose frames are
composed from those of the steps they are made of. -/

namespace Sys2Proof.Machine

open Claim

/-! ### Composing frames -/

theorem kept_trans {p : Part} {s t u : State} (h₁ : kept p s t) (h₂ : kept p t u) : kept p s u := by
  cases p with
  | stack =>
    obtain ⟨hsp, hslots⟩ := h₁
    obtain ⟨hsp', hslots'⟩ := h₂
    exact ⟨hsp'.trans hsp, hslots'.trans hslots⟩
  | faultRecord =>
    obtain ⟨hf, hop, hpc⟩ := h₁
    obtain ⟨hf', hop', hpc'⟩ := h₂
    exact ⟨hf'.trans hf, hop'.trans hop, hpc'.trans hpc⟩
  | regs => exact fun r => (h₂ r).trans (h₁ r)
  | mem => exact fun a => (h₂ a).trans (h₁ a)
  | keys => exact fun k => (h₂ k).trans (h₁ k)
  | fb => exact fun r c => (h₂ r c).trans (h₁ r c)
  | _ => exact Eq.trans h₂ h₁

/-- Two changes in a row touch no part beyond those either may touch. -/
theorem keptBut_trans {ps qs : List Part} {s t u : State} (h₁ : keptBut ps s t) (h₂ : keptBut qs t u) :
    keptBut (ps ++ qs) s u := by
  intro p hp
  rw [List.mem_append, not_or] at hp
  obtain ⟨hps, hqs⟩ := hp
  exact kept_trans (h₁ p hps) (h₂ p hqs)

/-- A new PC is a change of PC alone. -/
theorem keptBut_setPC (s : State) (a : Word) : keptBut [.pc] s (setPC s a) := by
  intro p hp
  have h := kept_refl p s
  cases p with
  | pc => simp at hp
  | _ => exact h

/-- A change of the stack between the fetch advance and the jump: what a call and a return are made of. -/
theorem keptBut_setPC_of_advance {s t : State} (h : keptBut [.stack] (advance s) t) (a : Word) :
    keptBut [.pc, .stack] s (setPC t a) :=
  keptBut_of_subset (by simp) (keptBut_trans (keptBut_trans (keptBut_setPC s _) h) (keptBut_setPC t a))

/-! ### The two jumps -/

theorem toNat_zext16 (nnn : Addr) : (zext16 nnn).toNat = nnn.toNat :=
  BitVec.toNat_setWidth_of_le (by decide)

/-- The sum needs 13 bits at most, so 16 hold it (R123). -/
theorem toNat_offsetTarget (nnn : Addr) (b : Byte) : (offsetTarget nnn b).toNat = nnn.toNat + b.toNat := by
  have hn := nnn.isLt
  have hb := b.isLt
  rw [offsetTarget, BitVec.toNat_ofNat]
  omega

/-- The jump overwrites the fetch advance (R121). -/
theorem exec_jp (nnn : Addr) (s : State) : exec (.jp nnn) s = .next (setPC s (zext16 nnn)) := rfl

theorem exec_jpV0 (nnn : Addr) (s : State) : exec (.jpV0 nnn) s = .next (setPC s (offsetTarget nnn (getV s 0))) := rfl

/-- Settles O12: the jump is one write of PC, which changes nothing when PC already holds the target. -/
theorem jumpGoesToLiteral : Obligations.JumpGoesToLiteral := by
  intro nnn s
  refine ⟨_, exec_jp nnn s, toNat_zext16 nnn, keptBut_setPC s _, fun h => ?_⟩
  have hpc : zext16 nnn = s.pc := BitVec.eq_of_toNat_eq ((toNat_zext16 nnn).trans h.symm)
  rw [hpc]
  rfl

/-- A read reduces its address, so an address already reduced reads the same (20_memory.md R61). -/
theorem memRead_mod (s : State) (a : Nat) : memRead s (a % 4096) = memRead s a :=
  memRead_congr (Nat.mod_mod a memSize) s

/-- Settles O13: PC holds the exact sum, and the reads of the fetch reduce it. -/
theorem offsetJumpAddsV0 : Obligations.OffsetJumpAddsV0 := by
  intro nnn s
  refine ⟨_, exec_jpV0 nnn s, toNat_offsetTarget nnn _, keptBut_setPC s _, ?_⟩
  rw [toNat_fetchWord, setPC_pc, toNat_offsetTarget, memRead_mod, memRead_mod, memRead_setPC, memRead_setPC]

/-! ### Call and return -/

/-- Settles O14: a push of the advanced PC that is not refused, then the jump. -/
theorem callPushesReturnAddress : Obligations.CallPushesReturnAddress := by
  intro nnn s hs
  obtain ⟨t, hpush, hslot, hsp, hslots, hframe⟩ := push_of_lt (s := advance s) hs (advance s).pc
  exact ⟨_, exec_call_of_ok hpush, toNat_zext16 nnn, hsp, hslot, hslots, keptBut_setPC_of_advance hframe _⟩

/-- A pop is a change of the stack alone (10_state.md R30). -/
theorem keptBut_of_pop {s t : State} {w : Word} (h : pop s = .ok (w, t)) : keptBut [.stack] s t := by
  obtain ⟨-, hp⟩ | ⟨_, -, hp⟩ := pop_cases s
  · rw [hp] at h
    cases h
  · rw [hp] at h
    cases h
    exact keptBut_stack s _ _

/-- Settles O15: a pop that is not refused, then the jump to the word popped. -/
theorem returnPopsReturnAddress : Obligations.ReturnPopsReturnAddress := by
  intro s hs
  obtain ⟨w, t, hpop, hslot, hsp, hstack⟩ := pop_of_pos (s := advance s) hs
  exact ⟨_, exec_ret_of_ok hpop, hslot, hsp, hstack, keptBut_setPC_of_advance (keptBut_of_pop hpop) w⟩

/-- Settles O19, from O14 and O15: the slot the return pops is the one the call wrote. -/
theorem returnUndoesCall : Obligations.ReturnUndoesCall := by
  intro nnn s hs
  obtain ⟨t, hcall, -, hspt, hslot, -, hframe⟩ := callPushesReturnAddress nnn s hs
  obtain ⟨u, hret, hpop, hspu, -, hframe'⟩ := returnPopsReturnAddress t (by omega)
  have hpc : some u.pc = some (s.pc + 2) := by rw [← hpop, hspt, Nat.add_sub_cancel, hslot]
  refine ⟨t, u, hcall, hret, Option.some.inj hpc, Fin.ext (by omega), ?_⟩
  exact keptBut_of_subset (by simp) (keptBut_trans hframe hframe')

end Sys2Proof.Machine
end

section
/-! The compare skips (41_skip.md R130 to R133): the frame of a skip, the two targets of a condition and its complement, and the
words next to `5xy0` and `9xy0` that no instruction has. -/

namespace Sys2Proof.Machine

open Claim

/-! ### A skip after the fetch advance -/

/-- A skip, taken or not, is a change of PC alone. -/
theorem keptBut_skipIf_advance (c : Bool) (s : State) : keptBut [.pc] s (skipIf c (advance s)) := by
  cases c with
  | false => exact keptBut_setPC s _
  | true => exact keptBut_setPC s _

/-- Of the skips on a condition and on its complement exactly one is taken. -/
theorem skipIf_advance_pc_complement (c : Bool) (s : State) :
    (c = true → (skipIf c (advance s)).pc = s.pc + 4 ∧ (skipIf (!c) (advance s)).pc = s.pc + 2) ∧
    (c = false → (skipIf c (advance s)).pc = s.pc + 2 ∧ (skipIf (!c) (advance s)).pc = s.pc + 4) := by
  constructor
  · rintro rfl
    exact ⟨skipIf_advance_pc s true, skipIf_advance_pc s false⟩
  · rintro rfl
    exact ⟨skipIf_advance_pc s false, skipIf_advance_pc s true⟩

/-! ### The four arms -/

theorem exec_seByte (x : Nibble) (nn : Byte) (s : State) :
    exec (.seByte x nn) s = .next (skipIf (getV s x == nn) (advance s)) := rfl

theorem exec_sneByte (x : Nibble) (nn : Byte) (s : State) :
    exec (.sneByte x nn) s = .next (skipIf (!(getV s x == nn)) (advance s)) := rfl

theorem exec_seReg (x y : Nibble) (s : State) :
    exec (.seReg x y) s = .next (skipIf (getV s x == getV s y) (advance s)) := rfl

theorem exec_sneReg (x y : Nibble) (s : State) :
    exec (.sneReg x y) s = .next (skipIf (!(getV s x == getV s y)) (advance s)) := rfl

/-! ### The undefined words of families 5 and 9 -/

theorem decode_of_undefined5 {op : Word} (h : undefined5 op = true) : decode op = .unknownOpcode op := by
  obtain ⟨hundefined, -⟩ := undefinedWordsAreTheSixFamilies op
  exact hundefined.mp (by simp [wellFormedWord, h])

theorem decode_of_undefined9 {op : Word} (h : undefined9 op = true) : decode op = .unknownOpcode op := by
  obtain ⟨hundefined, -⟩ := undefinedWordsAreTheSixFamilies op
  exact hundefined.mp (by simp [wellFormedWord, h])

/-- A low nibble other than 0 puts a word of family 5 in the undefined family (R97). -/
theorem undefined5_xyn {n : Nibble} (hn : n ≠ 0) (x y : Nibble) : undefined5 (0x5#4 ++ x ++ y ++ n) = true := by
  rw [undefined5_iff, fieldT_xyn, fieldN_xyn]
  exact ⟨rfl, BitVec.toNat_ne_iff_ne.mpr hn⟩

theorem undefined9_xyn {n : Nibble} (hn : n ≠ 0) (x y : Nibble) : undefined9 (0x9#4 ++ x ++ y ++ n) = true := by
  rw [undefined9_iff, fieldT_xyn, fieldN_xyn]
  exact ⟨rfl, BitVec.toNat_ne_iff_ne.mpr hn⟩

/-! ### The obligations -/

/-- Settles O21: the two arms skip on one comparison and on its complement. -/
theorem byteSkips : Obligations.ByteSkips := by
  intro x nn s
  obtain ⟨hequal, hdifferent⟩ := skipIf_advance_pc_complement (getV s x == nn) s
  exact ⟨_, _, exec_seByte x nn s, exec_sneByte x nn s, keptBut_skipIf_advance _ s, keptBut_skipIf_advance _ s,
    fun h => hequal (beq_iff_eq.mpr h), fun h => hdifferent (beq_eq_false_iff_ne.mpr h)⟩

/-- Settles O22: the two arms skip on one comparison and on its complement; other low nibbles are in the undefined families. -/
theorem registerSkips : Obligations.RegisterSkips := by
  intro x y s
  obtain ⟨hequal, hdifferent⟩ := skipIf_advance_pc_complement (getV s x == getV s y) s
  exact ⟨_, _, exec_seReg x y s, exec_sneReg x y s, keptBut_skipIf_advance _ s, keptBut_skipIf_advance _ s,
    fun h => hequal (beq_iff_eq.mpr h), fun h => hdifferent (beq_eq_false_iff_ne.mpr h),
    fun _ hn => ⟨decode_of_undefined5 (undefined5_xyn hn x y), decode_of_undefined9 (undefined9_xyn hn x y)⟩⟩

end Sys2Proof.Machine
end

section
/-! Registers, arithmetic, logic, shifts and random bytes (42_alu.md): the numbers the operations compute (R153), the frame of a
register write with and without a flag (R152), and the instructions made of them. -/

namespace Sys2Proof.Machine

open Claim

/-! ### The numbers the operations compute -/

theorem toNat_addByte (a b : Byte) : (addByte a b).toNat = (a.toNat + b.toNat) % 256 :=
  BitVec.toNat_ofNat ..

/-- The 256 added before the subtraction is gone after the reduction. -/
theorem toNat_subByte (a b : Byte) : ((subByte a b).toNat : Int) = ((a.toNat : Int) - b.toNat) % 256 := by
  have hb := b.isLt
  rw [subByte, BitVec.toNat_ofNat]
  omega

theorem flagByte_carry (a b : Byte) : flagByte (carry a b) = if a.toNat + b.toNat > 255 then 1 else 0 := by
  simp only [flagByte, carry, decide_eq_true_eq, gt_iff_lt]

theorem flagByte_noBorrow (a b : Byte) : flagByte (noBorrow a b) = if a.toNat ≥ b.toNat then 1 else 0 := by
  simp only [flagByte, noBorrow, decide_eq_true_eq, ge_iff_le]

theorem toNat_flagByte_shiftOutRight (a : Byte) : (flagByte (shiftOutRight a)).toNat = a.toNat % 2 := by
  simp only [toNat_flagByte, shiftOutRight, decide_eq_true_eq]
  split <;> omega

/-- A byte with no bit outside a mask is left as it is by the mask. -/
theorem and_eq_self_of_and_not_eq_zero {r nn : Byte} (h : r &&& ~~~nn = 0) : r &&& nn = r :=
  calc r &&& nn
    _ = r &&& nn ||| r &&& ~~~nn := by rw [h]; exact BitVec.or_zero.symm
    _ = r := by
      ext k hk
      cases hn : nn[k] <;> simp [hn]

/-! ### A register written after the fetch advance -/

/-- New registers, a new PC and a new count of draws: all that an instruction of this section may change. -/
theorem keptBut_draws_regs_pc (s : State) (v : Vector Byte 16) (a : Word) (n : Nat) :
    keptBut [.draws, .regs, .pc] s { s with v := v, pc := a, draws := n } := by
  intro p hp
  have h := kept_refl p s
  cases p with
  | draws => simp at hp
  | regs => simp at hp
  | pc => simp at hp
  | _ => exact h

section
variable (s : State) (x : Nibble) (b : Byte)

theorem keptBut_setV_advance : keptBut [.regs, .pc] s (setV (advance s) x b) :=
  keptBut_of_cons (keptBut_draws_regs_pc s _ _ s.draws) rfl

theorem regsKeptBut_setV_advance : regsKeptBut [x] s (setV (advance s) x b) := fun _ hr =>
  getV_setV_of_ne (advance s) (List.ne_of_not_mem_cons hr) b

variable (c : Bool)

theorem keptBut_writeResultFlag_advance : keptBut [.regs, .pc] s (writeResultFlag (advance s) x b c) :=
  keptBut_of_cons (keptBut_draws_regs_pc s _ _ s.draws) rfl

theorem regsKeptBut_writeResultFlag_advance : regsKeptBut [x, vf] s (writeResultFlag (advance s) x b c) := by
  intro r hr
  obtain ⟨hx, hvf⟩ : r ≠ x ∧ r ≠ vf := by simpa using hr
  rw [getV_writeResultFlag, if_neg hvf, if_neg hx, getV_advance]

/-- The flag is written last, so it remains for every `x` (R152). -/
@[simp] theorem getV_writeResultFlag_vf : getV (writeResultFlag s x b c) vf = flagByte c :=
  getV_writeFlag_vf (setV s x b) c

theorem getV_writeResultFlag_of_ne {x : Nibble} (hx : x ≠ vf) : getV (writeResultFlag s x b c) x = b := by
  rw [getV_writeResultFlag, if_neg hx, if_pos rfl]

end

/-! ### The arms that write one register -/

section
variable (x y : Nibble) (nn : Byte) (s : State)

theorem exec_ldByte : exec (.ldByte x nn) s = .next (setV (advance s) x nn) := rfl

theorem exec_addByte : exec (.addByte x nn) s = .next (setV (advance s) x (addByte (getV s x) nn)) := rfl

theorem exec_ldReg : exec (.ldReg x y) s = .next (setV (advance s) x (getV s y)) := rfl

/-- With `LOGIC_WRITES_VF` at its default a logic instruction writes its result and no flag (D6, log 4). -/
theorem logicOp_dialect (r : Byte) : logicOp dialect x r s = setV (advance s) x r := rfl

theorem exec_orReg : exec (.orReg x y) s = .next (logicOp dialect x (getV s x ||| getV s y) s) := rfl

theorem exec_andReg : exec (.andReg x y) s = .next (logicOp dialect x (getV s x &&& getV s y) s) := rfl

theorem exec_xorReg : exec (.xorReg x y) s = .next (logicOp dialect x (getV s x ^^^ getV s y) s) := rfl

end

/-- Settles O24: one write of one register. -/
theorem loadByteWritesLiteral : Obligations.LoadByteWritesLiteral := by
  intro x nn s
  exact ⟨_, exec_ldByte x nn s, getV_setV_same _ x nn, regsKeptBut_setV_advance s x nn, rfl, keptBut_setV_advance s x nn⟩

/-- Settles O25: one write of one register, of the reduced sum. -/
theorem addByteWrapsWithoutFlag : Obligations.AddByteWrapsWithoutFlag := by
  intro x nn s
  refine ⟨_, exec_addByte x nn s, ?_, regsKeptBut_setV_advance s x _, rfl, keptBut_setV_advance s x _⟩
  rw [getV_setV_same, toNat_addByte]

/-- Settles O26: one write of one register, of a value read before it. -/
theorem copyRegister : Obligations.CopyRegister := by
  intro x y s
  exact ⟨_, exec_ldReg x y s, getV_setV_same _ x _, regsKeptBut_setV_advance s x _, rfl, keptBut_setV_advance s x _⟩

/-- Settles O27: three writes of one register, and each bit of an OR, AND or XOR is that of the two bits. -/
theorem logicIsBitwiseWithoutFlag : Obligations.LogicIsBitwiseWithoutFlag := by
  intro x y s
  refine ⟨_, _, _, exec_orReg x y s, exec_andReg x y s, exec_xorReg x y s, ?_⟩
  simp only [logicOp_dialect, getV_setV_same]
  exact ⟨fun k _ => ⟨BitVec.getLsbD_or, BitVec.getLsbD_and, BitVec.getLsbD_xor⟩,
    regsKeptBut_setV_advance s x _, regsKeptBut_setV_advance s x _, regsKeptBut_setV_advance s x _, rfl, rfl, rfl,
    keptBut_setV_advance s x _, keptBut_setV_advance s x _, keptBut_setV_advance s x _⟩

/-! ### The arms that write a result and a flag -/

section
variable (x y : Nibble) (s : State)

theorem exec_addReg : exec (.addReg x y) s = .next (writeResultFlag (advance s) x (addByte (getV s x) (getV s y))
    (carry (getV s x) (getV s y))) := rfl

theorem exec_subReg : exec (.subReg x y) s = .next (writeResultFlag (advance s) x (subByte (getV s x) (getV s y))
    (noBorrow (getV s x) (getV s y))) := rfl

theorem exec_subnReg : exec (.subnReg x y) s = .next (writeResultFlag (advance s) x (subByte (getV s y) (getV s x))
    (noBorrow (getV s y) (getV s x))) := rfl

/-- With `VF_WRITE_ORDER` at its default the flag of a shift comes last (D5, log 4). -/
theorem exec_shr_flagLast : exec (.shr x y) s = .next (writeResultFlag (advance s) x (shrByte (getV s x))
    (shiftOutRight (getV s x))) := by
  rw [exec_shr, shrOp_flagLast rfl]

theorem exec_shl_flagLast : exec (.shl x y) s = .next (writeResultFlag (advance s) x (shlByte (getV s x))
    (shiftOutLeft (getV s x))) := by
  rw [exec_shl, shlOp_flagLast rfl]

end

/-- Settles O28: the reduced sum, then the carry. -/
theorem addSetsCarry : Obligations.AddSetsCarry := by
  intro x y s
  refine ⟨_, exec_addReg x y s, fun hx => ?_, ?_, regsKeptBut_writeResultFlag_advance s x _ _, rfl,
    keptBut_writeResultFlag_advance s x _ _⟩
  · rw [getV_writeResultFlag_of_ne _ _ _ hx, toNat_addByte]
  · exact (getV_writeResultFlag_vf ..).trans (flagByte_carry _ _)

/-- Settles O29: the reduced difference, then the comparison. -/
theorem subtractSetsNoBorrow : Obligations.SubtractSetsNoBorrow := by
  intro x y s
  refine ⟨_, exec_subReg x y s, fun hx => ?_, ?_, regsKeptBut_writeResultFlag_advance s x _ _, rfl,
    keptBut_writeResultFlag_advance s x _ _⟩
  · rw [getV_writeResultFlag_of_ne _ _ _ hx, toNat_subByte]
  · exact (getV_writeResultFlag_vf ..).trans (flagByte_noBorrow _ _)

/-- Settles O30: the same difference and comparison with `V[y]` as the minuend. -/
theorem reverseSubtractSetsNoBorrow : Obligations.ReverseSubtractSetsNoBorrow := by
  intro x y s
  refine ⟨_, exec_subnReg x y s, fun hx => ?_, ?_, regsKeptBut_writeResultFlag_advance s x _ _, rfl,
    keptBut_writeResultFlag_advance s x _ _⟩
  · rw [getV_writeResultFlag_of_ne _ _ _ hx, toNat_subByte]
  · exact (getV_writeResultFlag_vf ..).trans (flagByte_noBorrow _ _)

/-- Settles O31: the quotient or the double, then the bit moved out. -/
theorem shiftsMoveOneBitIntoFlag : Obligations.ShiftsMoveOneBitIntoFlag := by
  intro x y s
  refine ⟨_, _, exec_shr_flagLast x y s, exec_shl_flagLast x y s, fun hx => ⟨?_, ?_⟩, ?_, ?_,
    regsKeptBut_writeResultFlag_advance s x _ _, regsKeptBut_writeResultFlag_advance s x _ _, rfl, rfl,
    keptBut_writeResultFlag_advance s x _ _, keptBut_writeResultFlag_advance s x _ _⟩
  · rw [getV_writeResultFlag_of_ne _ _ _ hx, toNat_shrByte]
  · rw [getV_writeResultFlag_of_ne _ _ _ hx, toNat_shlByte]
  · exact (congrArg BitVec.toNat (getV_writeResultFlag_vf ..)).trans (toNat_flagByte_shiftOutRight _)
  · exact (congrArg BitVec.toNat (getV_writeResultFlag_vf ..)).trans (toNat_flagByte_shiftOutLeft _)

/-! ### The random byte -/

theorem exec_rnd (x : Nibble) (nn : Byte) (s : State) : exec (.rnd x nn) s = .next (rndOp (Config.rnd s.draws) x nn s) := rfl

theorem getV_rndOp (draw : Byte) (x : Nibble) (nn : Byte) (s : State) : getV (rndOp draw x nn s) x = draw &&& nn :=
  getV_setV_same (advance s) x _

theorem keptBut_rndOp (draw : Byte) (x : Nibble) (nn : Byte) (s : State) :
    keptBut [.regs, .pc, .draws] s (rndOp draw x nn s) :=
  keptBut_of_subset (by simp) (keptBut_draws_regs_pc s _ _ _)

/-- Settles O32: whatever the draw, the mask clears what is outside it; a byte inside the mask is the result of itself as the
draw. -/
theorem randomByteIsMasked : Obligations.RandomByteIsMasked := by
  intro x nn s
  refine ⟨⟨_, exec_rnd x nn s, ?_, regsKeptBut_setV_advance s x _, rfl, rfl, keptBut_rndOp _ x nn s⟩,
    ⟨_, exec_rnd x nn s⟩, fun r hr => ⟨r, ?_⟩⟩
  · rw [getV_rndOp, BitVec.and_assoc, BitVec.and_not_self]
    exact BitVec.and_zero
  · rw [getV_rndOp, and_eq_self_of_and_not_eq_zero hr]

end Sys2Proof.Machine
end

section
/-! The index register and the transfers through it (43_index_memory.md): the numbers written to I (R160 to R162), the three
digits of a byte (R163), and the registers stored and loaded (R164, R165). -/

namespace Sys2Proof.Machine

open Claim

/-! ### The three writes of I -/

/-- A new I after the fetch advance is a change of I and PC alone. -/
theorem keptBut_setI_advance (s : State) (a : Word) : keptBut [.index, .pc] s (setI (advance s) a) := by
  intro p hp
  have h := kept_refl p s
  cases p with
  | index => simp at hp
  | pc => simp at hp
  | _ => exact h

theorem toNat_lowNibble (b : Byte) : (lowNibble b).toNat = b.toNat % 16 := by
  simp [lowNibble]

/-- The last glyph starts at 0x09B, so no reduction takes place (R162). -/
theorem toNat_glyphAddr (d : Nibble) : (glyphAddr d).toNat = 0x050 + 5 * d.toNat := by
  have hd := d.isLt
  simp only [glyphAddr, fontBase, glyphBytes, BitVec.toNat_ofNat]
  omega

theorem exec_ldI (nnn : Addr) (s : State) : exec (.ldI nnn) s = .next (setI (advance s) (zext16 nnn)) := rfl

/-- With `FX1E_WRITES_VF` at its default the sum is written to I and no flag is (D7, log 4). -/
theorem exec_addI (x : Nibble) (s : State) :
    exec (.addI x) s = .next (setI (advance s) (indexSum s.i (getV s x))) := rfl

theorem exec_ldF (x : Nibble) (s : State) :
    exec (.ldF x) s = .next (setI (advance s) (glyphAddr (lowNibble (getV s x)))) := rfl

/-- Settles O35: one write of I, of the literal. -/
theorem loadIndexWritesLiteral : Obligations.LoadIndexWritesLiteral := by
  intro nnn s
  exact ⟨_, exec_ldI nnn s, toNat_zext16 nnn, rfl, keptBut_setI_advance s _⟩

/-- Settles O36: one write of I, of the reduced sum. -/
theorem addIndexWrapsTwelveBits : Obligations.AddIndexWrapsTwelveBits := by
  intro x s
  exact ⟨_, exec_addI x s, toNat_indexSum _ _, rfl, keptBut_setI_advance s _⟩

/-- Settles O37: one write of I, of the address of a glyph. -/
theorem glyphAddressOfLowNibble : Obligations.GlyphAddressOfLowNibble := by
  intro x s
  refine ⟨_, exec_ldF x s, ?_, rfl, keptBut_setI_advance s _⟩
  rw [setI_i, toNat_glyphAddr, toNat_lowNibble]

/-! ### Transfers to memory -/

/-- A transfer to memory after the fetch advance is a change of memory and PC alone. -/
theorem keptBut_storeBytes_advance (s : State) (a : Nat) (bs : List Byte) :
    keptBut [.mem, .pc] s (storeBytes (advance s) a bs) := by
  rw [storeBytes_eq]
  exact keptBut_of_subset (by simp) (keptBut_trans (keptBut_setPC s _) (keptBut_mem (advance s) _))

/-- A transfer at I of `n` bytes leaves every byte outside the `n` addresses from I on. -/
theorem memKeptOutside_storeBytes_advance (s : State) (bs : List Byte) :
    memKeptOutside bs.length s (storeBytes (advance s) s.i.toNat bs) := fun a ha =>
  memRead_storeBytes_outside bs (advance s) s.i.toNat a ha

/-- The address of a transfer is reduced already, and the read reduces its address (20_memory.md R61). -/
theorem memRead_indexAddr (s t : State) (k : Nat) : memRead t (indexAddr s k) = memRead t (s.i.toNat + k) :=
  memRead_mod t _

theorem exec_ldB (x : Nibble) (s : State) :
    exec (.ldB x) s = .next (storeBytes (advance s) s.i.toNat (bcdDigits (getV s x))) := rfl

/-- Each digit is below 10, so a byte holds it (R163). -/
theorem toNat_bcdDigits (b : Byte) : (bcdDigits b)[0].toNat = b.toNat / 100 ∧
    (bcdDigits b)[1].toNat = b.toNat / 10 % 10 ∧ (bcdDigits b)[2].toNat = b.toNat % 10 := by
  have hb := b.isLt
  simp only [bcdDigits, List.getElem_cons_zero, List.getElem_cons_succ, BitVec.toNat_ofNat]
  omega

/-- The `k`-th digit of a byte stands at the `k`-th address of the transfer of its three digits. -/
theorem memRead_storeBytes_bcdDigits (s u : State) (b : Byte) {k : Nat} (hk : k < (bcdDigits b).length) :
    memRead (storeBytes u s.i.toNat (bcdDigits b)) (indexAddr s k) = (bcdDigits b)[k] := by
  have hlap : (bcdDigits b).length ≤ memSize := by simp [memSize]
  rw [memRead_indexAddr, memRead_storeBytes_inside _ u s.i.toNat k hlap hk]

/-- Settles O38: a transfer at I of the three digits. -/
theorem bcdStoresThreeDigits : Obligations.BcdStoresThreeDigits := by
  intro x s
  obtain ⟨hhundreds, htens, hones⟩ := toNat_bcdDigits (getV s x)
  refine ⟨_, exec_ldB x s, ?_, ?_, ?_, fun _ => rfl, memKeptOutside_storeBytes_advance s (bcdDigits (getV s x)),
    storeBytes_pc _ _ _, keptBut_storeBytes_advance s _ _⟩
  · exact (congrArg BitVec.toNat (memRead_storeBytes_bcdDigits s _ _ _)).trans hhundreds
  · exact (congrArg BitVec.toNat (memRead_storeBytes_bcdDigits s _ _ _)).trans htens
  · exact (congrArg BitVec.toNat (memRead_storeBytes_bcdDigits s _ _ _)).trans hones

/-- Settles O39: a transfer at I of V0 to Vx. -/
theorem storeRegistersAtIndex : Obligations.StoreRegistersAtIndex := by
  intro x s
  refine ⟨_, exec_ldMemVx x s, fun k hk => ?_, ?_, storeBytes_pc _ _ _, keptBut_storeBytes_advance s _ _⟩
  · rw [memRead_mod, memRead_storeBytes_regsUpTo s _ _ hk, BitVec.ofNat_toNat, BitVec.setWidth_eq]
  · rw [← length_regsUpTo s x]
    exact memKeptOutside_storeBytes_advance s _

/-! ### Transfers to the registers -/

/-- `Fx65` with the default dialect is the transfer alone: I stays (D8, log 4). -/
theorem exec_ldVxMem (x : Nibble) (s : State) :
    exec (.ldVxMem x) s = .next (setRegs (advance s) 0 (loadBytes s s.i.toNat (x.toNat + 1))) := rfl

@[simp] theorem setRegs_pc (s : State) (k : Nat) (bs : List Byte) : (setRegs s k bs).pc = s.pc := by
  rw [setRegs_eq]

/-- A transfer to the registers after the fetch advance is a change of registers and PC alone. -/
theorem keptBut_setRegs_advance (s : State) (k : Nat) (bs : List Byte) :
    keptBut [.regs, .pc] s (setRegs (advance s) k bs) := by
  rw [setRegs_eq]
  exact keptBut_of_cons (keptBut_draws_regs_pc s _ _ s.draws) rfl

section
variable (s u : State) (a : Nat) {x k : Nibble}

/-- `V[k]`, for `k` up to `x`, is the `k`-th byte of a transfer to V0 to Vx (R165). -/
theorem getV_setRegs_loadBytes (hk : k.toNat ≤ x.toNat) :
    getV (setRegs u 0 (loadBytes s a (x.toNat + 1))) k = memRead s (a + k.toNat) := by
  have hx := x.isLt
  have hrow : 0 + (loadBytes s a (x.toNat + 1)).length ≤ 16 := by
    rw [length_loadBytes]
    omega
  have hin : k.toNat < (loadBytes s a (x.toNat + 1)).length := by
    rw [length_loadBytes]
    omega
  have hread := getV_setRegs_inside _ u 0 k.toNat hrow hin
  rwa [Nat.zero_add, BitVec.ofNat_toNat, BitVec.setWidth_eq, getElem_loadBytes] at hread

/-- A transfer to V0 to Vx leaves the registers above `x` (R165). -/
theorem getV_setRegs_loadBytes_of_lt (hk : x.toNat < k.toNat) :
    getV (setRegs u 0 (loadBytes s a (x.toNat + 1))) k = getV u k := by
  have hx := x.isLt
  apply getV_setRegs_outside
  · rw [length_loadBytes]
    omega
  · rw [length_loadBytes]
    omega

end

/-- Settles O40: a transfer from I to V0 to Vx. -/
theorem loadRegistersFromIndex : Obligations.LoadRegistersFromIndex := by
  intro x s
  refine ⟨_, exec_ldVxMem x s, fun k hk => ?_, fun k hk => getV_setRegs_loadBytes_of_lt s (advance s) _ hk,
    setRegs_pc _ _ _, keptBut_setRegs_advance s _ _⟩
  rw [memRead_mod, getV_setRegs_loadBytes s (advance s) _ hk]

/-- Settles O41, from O39 and O40: the frame of the store keeps I, so the load reads the addresses the store wrote. -/
theorem loadAfterStoreRestores : Obligations.LoadAfterStoreRestores := by
  intro x s
  obtain ⟨t, hstore, hstored, -, -, hframe⟩ := storeRegistersAtIndex x s
  have hi : t.i = s.i := hframe .index (by simp)
  refine ⟨t, hstore, fun u (hui : u.i = t.i) humem => ?_⟩
  obtain ⟨w, hload, hloaded, -⟩ := loadRegistersFromIndex x u
  refine ⟨w, hload, fun k hk => ?_⟩
  calc getV w k
    _ = memRead u ((u.i.toNat + k.toNat) % 4096) := hloaded k hk
    _ = memRead t ((u.i.toNat + k.toNat) % 4096) := humem _
    _ = memRead t ((s.i.toNat + k.toNat) % 4096) := by rw [hui, hi]
    _ = getV s k := hstored k hk

end Sys2Proof.Machine
end

section
/-! The display (44_display.md): a clear (R170), a draw as one XOR of the display with the set bits of the sprite (R171 to R173),
and the laws of two draws and of a blank one (R174). -/

namespace Sys2Proof.Machine

open Claim

/-! ### Frames -/

/-- A new framebuffer is a change of the display alone. -/
theorem keptBut_setFB (s : State) (fb : Framebuffer) : keptBut [.fb] s (setFB s fb) := by
  intro p hp
  have h := kept_refl p s
  cases p with
  | fb => simp at hp
  | _ => exact h

theorem flagByte_eq_one_iff (c : Bool) : flagByte c = 1 ↔ c = true := by cases c <;> simp [flagByte]

theorem exec_cls (s : State) : exec .cls s = .next (setFB (advance s) clearFB) := rfl

theorem exec_drw (x y n : Nibble) (s : State) : exec (.drw x y n) s = .next (drawOp x y n s) := rfl

/-- Settles O43: one write of the display, of the clear one. -/
theorem clearTurnsEveryPixelOff : Obligations.ClearTurnsEveryPixelOff := by
  intro s
  refine ⟨_, exec_cls s, pixel_clearFB, rfl, ?_⟩
  exact keptBut_of_subset (by simp) (keptBut_trans (keptBut_setPC s _) (keptBut_setFB (advance s) clearFB))

/-! ### Where a pixel stands in a sprite -/

/-- The `bit_index` that falls on column `c` of a sprite whose left edge is at `vx`; 8 and more are beside the sprite. -/
def colOffset (vx : Byte) (c : Fin 64) : Nat := (c.val + 256 - vx.toNat) % 64

/-- The `row_index` that falls on row `r` of a sprite whose top edge is at `vy`. -/
def rowOffset (vy : Byte) (r : Fin 32) : Nat := (r.val + 256 - vy.toNat) % 32

/-- Up to 64 columns wide, a sprite puts one bit on a column. -/
theorem eq_pixelCol_iff (vx : Byte) (c : Fin 64) {k : Nat} (hk : k < 64) : c = pixelCol vx k ↔ colOffset vx c = k := by
  have hvx := vx.isLt
  have hc := c.isLt
  simp only [Fin.ext_iff, pixelCol, colOffset, Fin.val_ofNat]
  omega

/-- Up to 32 rows high, a sprite puts one of its rows on a row. -/
theorem eq_pixelRow_iff (vy : Byte) (r : Fin 32) {k : Nat} (hk : k < 32) : r = pixelRow vy k ↔ rowOffset vy r = k := by
  have hvy := vy.isLt
  have hr := r.isLt
  simp only [Fin.ext_iff, pixelRow, rowOffset, Fin.val_ofNat]
  omega

/-! ### A part of a draw as one XOR -/

/-- A set of pixels. -/
abbrev Mask := Fin 32 → Fin 64 → Bool

/-- From `acc` to `acc'` the pixels of the mask are inverted, and a collision is noted when one of them was on (R172, R173). -/
structure XorsMask (m : Mask) (acc acc' : Framebuffer × Bool) : Prop where
  pixels : ∀ r c, pixel acc'.1 r c = (pixel acc.1 r c ^^ m r c)
  collides : acc'.2 = true ↔ acc.2 = true ∨ ∃ r c, pixel acc.1 r c = true ∧ m r c = true

theorem xorsMask_of_blank {m : Mask} (hm : ∀ r c, m r c = false) (acc : Framebuffer × Bool) : XorsMask m acc acc where
  pixels r c := by rw [hm, Bool.xor_false]
  collides := by simp [hm]

/-- Two parts of a draw that share no pixel draw the union of the two: the second finds its pixels as the first one did. -/
theorem XorsMask.trans {m m' u : Mask} {acc acc' acc'' : Framebuffer × Bool} (h : XorsMask m acc acc')
    (h' : XorsMask m' acc' acc'') (hdisj : ∀ r c, m' r c = true → m r c = false)
    (hunion : ∀ r c, u r c = (m r c || m' r c)) : XorsMask u acc acc'' where
  pixels r c := by
    rw [h'.pixels, h.pixels, hunion]
    cases hm' : m' r c with
    | false => simp
    | true => simp [hdisj r c hm']
  collides := by
    have hsame : ∀ r c, m' r c = true → pixel acc'.1 r c = pixel acc.1 r c := fun r c hm' => by
      rw [h.pixels, hdisj r c hm', Bool.xor_false]
    rw [h'.collides, h.collides, or_assoc]
    simp only [← exists_or, hunion, Bool.or_eq_true, and_or_left]
    refine or_congr_right (exists_congr fun r => exists_congr fun c => or_congr_right ?_)
    exact and_congr_left fun hm' => by rw [hsame r c hm']

/-- One bit of a draw. -/
theorem drawBit_xorsMask (vx : Byte) (row : Fin 32) (b : Byte) (acc : Framebuffer × Bool) (k : Nat) :
    XorsMask (fun r c => decide (r = row ∧ c = pixelCol vx k) && spriteBit b k) acc (drawBit vx row b acc k) where
  pixels := pixel_drawBit vx row b acc k
  collides := by
    rw [collision_drawBit, Bool.or_eq_true]
    simp only [Bool.and_eq_true, decide_eq_true_eq]
    refine or_congr_right ⟨fun ⟨hon, hset⟩ => ⟨row, _, hon, ⟨rfl, rfl⟩, hset⟩, ?_⟩
    rintro ⟨_, _, hon, ⟨rfl, rfl⟩, hset⟩
    exact ⟨hon, hset⟩

/-- Column `c` gets a set bit from the first `k` bits of byte `b` drawn at column `vx`. -/
def bitsOn (vx b : Byte) (k : Nat) (c : Fin 64) : Bool := decide (colOffset vx c < k) && spriteBit b (colOffset vx c)

theorem bitsOn_succ (vx b : Byte) {k : Nat} (hk : k < 64) (c : Fin 64) :
    bitsOn vx b (k + 1) c = (bitsOn vx b k c || (decide (c = pixelCol vx k) && spriteBit b k)) := by
  simp only [bitsOn, eq_pixelCol_iff vx c hk]
  by_cases hc : colOffset vx c = k
  · simp [hc]
  · have : colOffset vx c < k + 1 ↔ colOffset vx c < k := by omega
    simp [hc, this]

/-- The first `k` bits of a row of a draw, by induction on `k`: bit `k` falls on a column none of the bits before it fell on. -/
theorem drawBits_xorsMask (vx : Byte) (row : Fin 32) (b : Byte) (acc : Framebuffer × Bool) {k : Nat} (hk : k ≤ 64) :
    XorsMask (fun r c => decide (r = row) && bitsOn vx b k c) acc ((List.range k).foldl (drawBit vx row b) acc) := by
  induction k with
  | zero => exact xorsMask_of_blank (by simp [bitsOn]) acc
  | succ k ih =>
    rw [List.range_succ, List.foldl_append]
    refine (ih (by omega)).trans (drawBit_xorsMask vx row b _ k) (fun r c hbit => ?_) (fun r c => ?_)
    · simp only [eq_pixelCol_iff vx c hk, Bool.and_eq_true, decide_eq_true_eq] at hbit
      obtain ⟨⟨-, hcol⟩, -⟩ := hbit
      simp [bitsOn, hcol]
    · by_cases hr : r = row
      · simp [hr, bitsOn_succ vx b hk]
      · simp [hr]

/-- One row of a draw. -/
theorem drawRow_xorsMask (vx : Byte) (row : Fin 32) (b : Byte) (acc : Framebuffer × Bool) :
    XorsMask (fun r c => decide (r = row) && bitsOn vx b 8 c) acc (drawRow vx row b acc) :=
  drawBits_xorsMask vx row b acc (k := 8) (by decide)

/-- Pixel `(r, c)` gets a set bit from one of the `m` rows from `row_index` `k` on, of the sprite whose bytes start at `a`. -/
def rowsOn (s : State) (a : Nat) (vx vy : Byte) (k m : Nat) : Mask := fun r c =>
  decide (k ≤ rowOffset vy r ∧ rowOffset vy r < k + m) && bitsOn vx (memRead s (a + rowOffset vy r)) 8 c

theorem rowsOn_succ (s : State) (a : Nat) (vx vy : Byte) {k : Nat} (hk : k < 32) (m : Nat) (r : Fin 32) (c : Fin 64) :
    rowsOn s a vx vy k (m + 1) r c =
      ((decide (r = pixelRow vy k) && bitsOn vx (memRead s (a + k)) 8 c) || rowsOn s a vx vy (k + 1) m r c) := by
  simp only [rowsOn, eq_pixelRow_iff vy r hk]
  by_cases hr : rowOffset vy r = k
  · simp [hr]
  · have : (k ≤ rowOffset vy r ∧ rowOffset vy r < k + (m + 1)) ↔
        (k + 1 ≤ rowOffset vy r ∧ rowOffset vy r < k + 1 + m) := by omega
    simp [hr, this]

/-- The rows of a draw from `row_index` `k` on, by induction on their number: no later row falls on the row of the first. -/
theorem drawRows_xorsMask (s : State) (a : Nat) (vx vy : Byte) (m : Nat) :
    ∀ (k : Nat) (acc : Framebuffer × Bool), k + m ≤ 32 →
      XorsMask (rowsOn s a vx vy k m) acc (drawRows vx vy k (loadBytes s (a + k) m) acc) := by
  induction m with
  | zero =>
    intro k acc _
    refine xorsMask_of_blank (fun r c => ?_) acc
    simp [rowsOn]
  | succ m ih =>
    intro k acc hk
    have hk' : k < 32 := by omega
    refine (drawRow_xorsMask vx (pixelRow vy k) _ acc).trans (ih (k + 1) _ (by omega)) (fun r c hrest => ?_)
      (rowsOn_succ s a vx vy hk' m)
    have hne : ¬rowOffset vy r = k := by
      simp only [rowsOn, Bool.and_eq_true, decide_eq_true_eq] at hrest
      omega
    simp [eq_pixelRow_iff vy r hk', hne]

/-- The statements' `spriteOn`, row by row. -/
theorem spriteOn_eq (s : State) (vx vy : Byte) (n : Nibble) (r : Fin 32) (c : Fin 64) : spriteOn s vx vy n r c =
    (decide (rowOffset vy r < n.toNat) && bitsOn vx (memRead s (s.i.toNat + rowOffset vy r)) 8 c) :=
  Bool.and_assoc ..

/-- The mask of all rows of a sprite is `spriteOn`. -/
theorem rowsOn_eq_spriteOn (s : State) (vx vy : Byte) (n : Nibble) :
    rowsOn s s.i.toNat vx vy 0 n.toNat = spriteOn s vx vy n := by
  funext r c
  simp [rowsOn, spriteOn_eq]

/-- A draw XORs the display with the set bits of the sprite. -/
theorem drawSprite_xorsMask (s : State) (vx vy : Byte) (n : Nibble) (fb : Framebuffer) :
    XorsMask (spriteOn s vx vy n) (fb, false) (drawSprite vx vy (spriteBytes n s) fb) := by
  have hn := n.isLt
  rw [← rowsOn_eq_spriteOn]
  exact drawRows_xorsMask s s.i.toNat vx vy n.toNat 0 (fb, false) (by omega)

/-! ### The draw -/

/-- A draw is a new display and then a write of VF after the fetch advance. -/
theorem drawOp_eq (x y n : Nibble) (s : State) :
    drawOp x y n s =
      setV (advance (setFB s (drawSprite (getV s x) (getV s y) (spriteBytes n s) s.fb).1)) vf
        (flagByte (drawSprite (getV s x) (getV s y) (spriteBytes n s) s.fb).2) := rfl

/-- Settles O44: the draw is one XOR with the sprite, and the flag is written after it. -/
theorem drawXorsSpriteAndFlagsCollision : Obligations.DrawXorsSpriteAndFlagsCollision := by
  intro x y n s
  have hdraw := drawSprite_xorsMask s (getV s x) (getV s y) n s.fb
  have hflag : getV (drawOp x y n s) 15 = flagByte (drawSprite (getV s x) (getV s y) (spriteBytes n s) s.fb).2 :=
    getV_writeFlag_vf _ _
  refine ⟨_, exec_drw x y n s, hdraw.pixels, ?_, ?_, regsKeptBut_setV_advance _ vf _, rfl, ?_⟩
  · rw [hflag, flagByte_eq_one_iff, hdraw.collides]
    simp
  · rw [hflag]
    exact flagByte_cases _
  · rw [drawOp_eq]
    exact keptBut_of_subset (by simp) (keptBut_trans (keptBut_setFB s _) (keptBut_setV_advance _ vf _))

/-! ### Laws of the draw -/

/-- Which pixels a sprite covers depends on I and memory alone. -/
theorem spriteOn_congr {s t : State} (hi : t.i = s.i) (hm : ∀ a, memRead t a = memRead s a) (vx vy : Byte)
    (n : Nibble) : spriteOn t vx vy n = spriteOn s vx vy n := by
  funext r c
  simp only [spriteOn, hi, hm]

/-- Settles O45, from O44 twice: the first draw keeps the coordinates, I and memory, so the second one inverts the same pixels. -/
theorem drawTwiceRestoresDisplay : Obligations.DrawTwiceRestoresDisplay := by
  intro x y n s hx hy
  obtain ⟨t, hst, hpix, hflag, -, hregs, -, hframe⟩ := drawXorsSpriteAndFlagsCollision x y n s
  obtain ⟨u, htu, hpix', hflag', -⟩ := drawXorsSpriteAndFlagsCollision x y n t
  have hsame : spriteOn t (getV t x) (getV t y) n = spriteOn s (getV s x) (getV s y) n := by
    rw [hregs x (by simpa using hx), hregs y (by simpa using hy)]
    exact spriteOn_congr (hframe .index (by simp)) (hframe .mem (by simp)) _ _ _
  rw [hsame] at hpix' hflag'
  have hsecond : getV u 15 = 1 ↔ ∃ r c, pixel s.fb r c = false ∧ spriteOn s (getV s x) (getV s y) n r c = true := by
    rw [hflag']
    refine exists_congr fun r => exists_congr fun c => and_congr_left fun hset => ?_
    rw [hpix, hset]
    simp
  refine ⟨t, u, hst, htu, fun r c => ?_, hsecond, ?_⟩
  · rw [hpix', hpix]
    simp
  · rintro ⟨r, c, hset⟩
    cases hold : pixel s.fb r c with
    | true => exact .inl (hflag.mpr ⟨r, c, hold, hset⟩)
    | false => exact .inr (hsecond.mpr ⟨r, c, hold, hset⟩)

/-- A sprite of zero bytes, or of no rows, has no set bit. -/
theorem spriteOn_of_zero {s : State} {n : Nibble} (hzero : ∀ k, k < n.toNat → memRead s (s.i.toNat + k) = 0) (vx vy : Byte)
    (r : Fin 32) (c : Fin 64) : spriteOn s vx vy n r c = false := by
  rw [spriteOn_eq]
  by_cases hr : rowOffset vy r < n.toNat
  · simp [hzero _ hr, bitsOn, spriteBit]
  · simp [hr]

/-- Settles O46, from O44: a blank sprite has no set bit to invert a pixel or to collide. -/
theorem blankDrawChangesNoPixel : Obligations.BlankDrawChangesNoPixel := by
  intro x y n s hzero
  obtain ⟨t, hst, hpix, hflag, hbit, -⟩ := drawXorsSpriteAndFlagsCollision x y n s
  simp only [spriteOn_of_zero hzero] at hpix hflag
  refine ⟨t, hst, fun r c => ?_, hbit.resolve_right fun hone => ?_⟩
  · rw [hpix, Bool.bne_false]
  · obtain ⟨_, _, -, hset⟩ := hflag.mp hone
    exact Bool.false_ne_true hset

end Sys2Proof.Machine
end

section
/-! The keypad (45_keypad.md): the key a wait takes (R182, R184), the skips on a key (R180, R181, R183), and the host's change of
one key (R185). -/

namespace Sys2Proof.Machine

open Claim

/-! ### The wait for a key -/

/-- The list of keys has key `i` at place `i`. -/
theorem toNat_getElem_allKeys : ∀ (i : Nat) (h : i < allKeys.length), (allKeys[i]'h).toNat = i := by decide

/-- Going through the keys in rising order finds the lowest one down (D10, log 8). -/
theorem anyPressed_of_lowest {s : State} {k : Nibble} (hk : keyDown s k = true)
    (hbelow : ∀ j : Nibble, j.toNat < k.toNat → keyDown s j = false) : anyPressed s = some k := by
  have hplace : allKeys[k.toNat]'k.isLt = k := BitVec.eq_of_toNat_eq (toNat_getElem_allKeys _ _)
  refine List.find?_eq_some_iff_getElem.mpr ⟨hk, k.toNat, k.isLt, hplace, fun i hi => ?_⟩
  rw [hbelow _ (by rwa [toNat_getElem_allKeys])]
  rfl

/-- Putting PC back undoes the fetch advance (D11, log 9). -/
theorem setPC_advance_pc (s : State) : setPC (advance s) s.pc = s := rfl

/-- Settles O47: with no key down the advance is undone, else one register is written with the lowest key. -/
theorem keyWaitTakesLowestKey : Obligations.KeyWaitTakesLowestKey := by
  intro x s
  refine ⟨fun hup => ?_, fun k hk hbelow => ?_⟩
  · rw [exec_ldVxK_of_none x ((anyPressed_eq_none s).mpr hup), setPC_advance_pc]
  · refine ⟨_, exec_ldVxK_of_some x (anyPressed_of_lowest hk hbelow), ?_, regsKeptBut_setV_advance s x _, rfl,
      keptBut_setV_advance s x _⟩
    rw [getV_setV_same]
    exact BitVec.toNat_setWidth_of_le (by decide)

/-! ### The skips on a key -/

theorem exec_skp (x : Nibble) (s : State) :
    exec (.skp x) s = .next (skipIf (keyDown s (lowNibble (getV s x))) (advance s)) := rfl

theorem exec_sknp (x : Nibble) (s : State) :
    exec (.sknp x) s = .next (skipIf (!keyDown s (lowNibble (getV s x))) (advance s)) := rfl

/-- Settles O23: the two arms skip on the same key's state and on its complement. -/
theorem keySkips : Obligations.KeySkips := by
  intro x k s hk
  have hkey : lowNibble (getV s x) = k := BitVec.eq_of_toNat_eq ((toNat_lowNibble _).trans hk)
  subst hkey
  exact ⟨_, _, exec_skp x s, exec_sknp x s, keptBut_skipIf_advance _ s, keptBut_skipIf_advance _ s,
    skipIf_advance_pc_complement _ s⟩

/-! ### The host's change of one key -/

section
variable {s : State}

theorem keySet_of_frozen (h : frozen s = true) (k : Nibble) (b : Bool) : keySet k b s = s := if_pos h

theorem keySet_of_not_frozen (h : frozen s = false) (k : Nibble) (b : Bool) :
    keySet k b s = { s with key := s.key.set k.toNat b k.isLt } := by
  simp only [keySet, h, Bool.false_eq_true, if_false]

theorem keyDown_keySet_same (h : frozen s = false) (k : Nibble) (b : Bool) : keyDown (keySet k b s) k = b := by
  rw [keySet_of_not_frozen h]
  exact Vector.getElem_set_self k.isLt

/-- The other keys are as before, frozen or not. -/
theorem keyDown_keySet_of_ne {j k : Nibble} (hj : j ≠ k) (b : Bool) : keyDown (keySet k b s) j = keyDown s j := by
  cases h : frozen s with
  | true => rw [keySet_of_frozen h]
  | false =>
    rw [keySet_of_not_frozen h]
    exact Vector.getElem_set_ne k.isLt j.isLt (BitVec.toNat_ne_iff_ne.mpr hj.symm)

end

/-- What taking an event from the list and setting a key may write. -/
theorem keptBut_keys_events (s : State) (ks : Vector Bool 16) (es : List Event) :
    keptBut [.keys, .events] s { s with key := ks, events := es } := by
  intro p hp
  have h := kept_refl p s
  cases p with
  | keys => simp at hp
  | events => simp at hp
  | _ => exact h

/-- Settles O48: the step sets the key after taking the event from the list, which changes neither the keys nor whether the core
is frozen. -/
theorem keySetWritesOneKey : Obligations.KeySetWritesOneKey := by
  intro s k b es hs
  refine ⟨keySet k b { s with events := es }, step_of_event hs, fun hf => ?_, fun hf => ?_,
    fun j hj => keyDown_keySet_of_ne hj b, ?_, ?_⟩
  · exact keyDown_keySet_same (s := { s with events := es }) hf k b
  · rw [keySet_of_frozen (s := { s with events := es }) hf]
    rfl
  · rw [keySet_eq]
  · rw [keySet_eq]
    exact keptBut_keys_events s _ es

end Sys2Proof.Machine
end

section
/-! The timers (46_timers.md): the frame of a write to the timers, the three accesses (R190 to R192), and SOUND (R37). -/

namespace Sys2Proof.Machine

open Claim

/-! ### Frames -/

/-- New timer values are a change of the two timers alone. -/
theorem keptBut_timers (s : State) (d b : Byte) : keptBut [.dt, .st] s { s with dt := d, st := b } := by
  intro p hp
  have h := kept_refl p s
  cases p with
  | dt => simp at hp
  | st => simp at hp
  | _ => exact h

/-- New timer values after the fetch advance. -/
theorem keptBut_timers_advance (s : State) (d b : Byte) :
    keptBut [.pc, .dt, .st] s { advance s with dt := d, st := b } :=
  keptBut_trans (keptBut_setPC s _) (keptBut_timers (advance s) d b)

theorem keptBut_setDT_advance (s : State) (b : Byte) : keptBut [.dt, .pc] s (setDT (advance s) b) :=
  keptBut_of_cons (p := .st) (keptBut_of_subset (by simp) (keptBut_timers_advance s b s.st)) rfl

theorem keptBut_setST_advance (s : State) (b : Byte) : keptBut [.st, .pc] s (setST (advance s) b) :=
  keptBut_of_cons (p := .dt) (keptBut_of_subset (by simp) (keptBut_timers_advance s s.dt b)) rfl

/-! ### The three accesses -/

theorem exec_ldVxDT (x : Nibble) (s : State) : exec (.ldVxDT x) s = .next (setV (advance s) x s.dt) := rfl

theorem exec_ldDTVx (x : Nibble) (s : State) : exec (.ldDTVx x) s = .next (setDT (advance s) (getV s x)) := rfl

theorem exec_ldSTVx (x : Nibble) (s : State) : exec (.ldSTVx x) s = .next (setST (advance s) (getV s x)) := rfl

/-- A byte is above 0 exactly when it is not 0 (R37). -/
theorem sound_iff (s : State) : sound s = true ↔ s.st ≠ 0 := by
  rw [sound, decide_eq_true_iff, Nat.pos_iff_ne_zero]
  exact BitVec.toNat_ne_iff_ne (n := 8) (y := 0)

/-- Settles O49: each access is one write to the state after the fetch advance, and keeps what that write keeps. -/
theorem timerAccess : Obligations.TimerAccess := by
  intro x s
  exact ⟨_, _, _, exec_ldVxDT x s, exec_ldDTVx x s, exec_ldSTVx x s,
    getV_setV_same _ x _, regsKeptBut_setV_advance s x _, rfl, keptBut_setV_advance s x _,
    rfl, rfl, keptBut_setDT_advance s _,
    rfl, rfl, keptBut_setST_advance s _, sound_iff⟩

end Sys2Proof.Machine
end

section
/-! The frozen condition and the errors (60_exceptions.md): every event but Reset leaves a frozen core as it is (R205), only an
ill-formed Load stops the machine (20_memory.md R72), and a stack error writes the record alone (R202 to R204). -/

namespace Sys2Proof.Machine

open Claim

/-! ### The events on a frozen core -/

section
variable {s : State}

theorem cycle_of_frozen (h : frozen s = true) : cycle s = .next s := if_pos h

theorem tick_of_frozen (h : frozen s = true) : tick s = s := if_pos h

theorem loadEvent_of_frozen (h : frozen s = true) (start : Nat) (bytes : List Byte) : loadEvent start bytes s = .next s :=
  if_pos h

theorem applyEvent_of_frozen {e : Event} (h : frozen s = true) (he : e ≠ .reset) : applyEvent e s = .next s := by
  cases e with
  | cycle => exact cycle_of_frozen h
  | tick => exact congrArg Host.Outcome.next (tick_of_frozen h)
  | keySet k b => exact congrArg Host.Outcome.next (keySet_of_frozen h k b)
  | reset => exact absurd rfl he
  | load start bytes => exact loadEvent_of_frozen h start bytes

end

/-- Settles O9: no event of a frozen core but Reset does anything, and the state after Reset has no fault. -/
theorem frozenCoreLeavesOnlyByReset : Obligations.FrozenCoreLeavesOnlyByReset := by
  intro s hf
  refine ⟨fun hs => ?_, fun e es hs he => ?_, fun es hs => ⟨_, step_of_event hs, rfl⟩⟩
  · rw [step_of_no_event hs, cycle_of_frozen hf]
  · rw [step_of_event hs]
    exact applyEvent_of_frozen (s := { s with events := es }) hf he

/-! ### What can stop the machine -/

theorem loadEvent_of_start_ge {s : State} {start : Nat} (hf : frozen s = false) (h : memSize ≤ start) (bytes : List Byte) :
    loadEvent start bytes s = .fault .loadStartOutOfRange := by
  simp [loadEvent, hf, h]

theorem exists_next_loadEvent_of_start_lt {start : Nat} (h : start < memSize) (bytes : List Byte) (s : State) :
    ∃ t, loadEvent start bytes s = .next t := by
  cases hf : frozen s with
  | true => exact ⟨_, loadEvent_of_frozen hf start bytes⟩
  | false =>
    obtain hlong | hin := Nat.lt_or_ge memSize (start + bytes.length)
    · exact ⟨_, loadEvent_of_lt hf h hlong⟩
    · exact ⟨_, loadEvent_of_le hf h hin⟩

/-- Every instruction completes, so every cycle does. -/
theorem exists_next_cycle (s : State) : ∃ t, cycle s = .next t := by
  obtain ⟨-, hc⟩ | ⟨-, op, -, hc⟩ | ⟨-, i, -, hc⟩ := cycle_cases s
  · exact ⟨_, hc⟩
  · exact ⟨_, hc⟩
  · obtain ⟨t, ht, -⟩ := exec_effect i s
    exact ⟨t, hc.trans ht⟩

/-- An event is applied, or it is a Load from outside memory, which stops a core that is not frozen. -/
theorem applyEvent_next_or_fault (e : Event) (s : State) :
    (∃ t, applyEvent e s = .next t) ∨
      e.wellFormed = false ∧ frozen s = false ∧ applyEvent e s = .fault .loadStartOutOfRange := by
  cases e with
  | cycle => exact .inl (exists_next_cycle s)
  | tick => exact .inl ⟨_, rfl⟩
  | keySet k b => exact .inl ⟨_, rfl⟩
  | reset => exact .inl ⟨_, rfl⟩
  | load start bytes =>
    obtain hin | hout := Nat.lt_or_ge start memSize
    · exact .inl (exists_next_loadEvent_of_start_lt hin bytes s)
    · cases hf : frozen s with
      | true => exact .inl ⟨_, loadEvent_of_frozen hf start bytes⟩
      | false => exact .inr ⟨decide_eq_false (Nat.not_lt.mpr hout), rfl, loadEvent_of_start_ge hf hout bytes⟩

/-- Settles O11: `exec_effect` for the instructions, and for a step the event it applies. -/
theorem onlyIllFormedLoadStops : Obligations.OnlyIllFormedLoadStops := by
  refine ⟨fun i s => ?_, fun s => ?_⟩
  · obtain ⟨t, ht, -⟩ := exec_effect i s
    exact ⟨t, ht⟩
  · cases hs : s.events with
    | nil => exact .inl (step_of_no_event hs ▸ exists_next_cycle s)
    | cons e es =>
      rw [step_of_event hs]
      obtain hnext | ⟨hwf, hf, hfault⟩ := applyEvent_next_or_fault e { s with events := es }
      · exact .inl hnext
      · exact .inr ⟨e, es, rfl, hwf, hf, hfault⟩

/-! ### The two stack errors -/

theorem pop_of_empty {s : State} (h : s.sp.val = 0) : pop s = .error .stackUnderflow := by
  obtain ⟨-, hp⟩ | ⟨-, hpos, -⟩ := pop_cases s
  · exact hp
  · omega

theorem exec_call_of_full {s : State} (h : s.sp.val = 16) (nnn : Addr) :
    exec (.call nnn) s = .next (raise s .stackOverflow (encode (.call nnn))) :=
  exec_call_of_error (push_of_full (s := advance s) h _)

theorem exec_ret_of_empty {s : State} (h : s.sp.val = 0) :
    exec .ret s = .next (raise s .stackUnderflow (encode .ret)) :=
  exec_ret_of_error (pop_of_empty (s := advance s) h)

/-- The word of a call is `2nnn`, as a number. -/
theorem toNat_encode_call (nnn : Addr) : (encode (.call nnn)).toNat = 0x2000 + nnn.toNat := by
  rw [encode, BitVec.toNat_append, ← Nat.shiftLeft_add_eq_or_of_lt nnn.isLt]
  rfl

/-- Raising an error is a change of the fault record alone (R204). -/
theorem keptBut_raise (s : State) (e : FaultCode) (op : Word) : keptBut [.faultRecord] s (raise s e op) :=
  keptBut_of_cons (keptBut_events_faultRecord s s.events e op) rfl

/-- Settles O16: both errors are `raise` with the word of the instruction. -/
theorem stackErrorsWriteOnlyTheRecord : Obligations.StackErrorsWriteOnlyTheRecord :=
  ⟨fun nnn s h => ⟨_, exec_call_of_full h nnn, rfl, toNat_encode_call nnn, rfl, keptBut_raise s _ _⟩,
    fun s h => ⟨_, exec_ret_of_empty h, rfl, rfl, rfl, keptBut_raise s _ _⟩⟩

end Sys2Proof.Machine
end

section
/-! The fault record explains itself (60_exceptions.md R201 to R205): a core without a fault has nothing to explain, each of the
three ways to raise an error writes a record that names the word at PC, and a frozen core keeps its record until Reset. -/

namespace Sys2Proof.Machine

open Safety

theorem frozen_eq_false_iff (s : State) : frozen s = false ↔ s.fault = .none := by simp [frozen]

theorem faultExplained_of_fault_none {s : State} (h : s.fault = .none) : faultExplained s = true := by
  simp only [faultExplained, h]

/-! ### The three errors -/

section
variable {s : State}

/-- `raise` writes neither PC nor memory, so the next fetch reads the same word. -/
theorem fetchWord_raise (s : State) (e : FaultCode) (op : Word) : fetchWord (raise s e op) = fetchWord s := rfl

theorem faultExplained_raise_unknownOpcode (h : wellFormedWord (fetchWord s) = false) :
    faultExplained (raise s .unknownOpcode (fetchWord s)) = true := by
  simp [faultExplained, fetchWord_raise, h]

theorem faultExplained_raise_stackOverflow {nnn : Addr} (hop : encode (.call nnn) = fetchWord s) (hsp : s.sp.val = 16) :
    faultExplained (raise s .stackOverflow (encode (.call nnn))) = true := by
  have ht : fieldT (encode (.call nnn)) = 2 := fieldT_nnn 0x2#4 nnn
  simp [faultExplained, fetchWord_raise, ← hop, ht, hsp]

theorem faultExplained_raise_stackUnderflow (hop : encode .ret = fetchWord s) (hsp : s.sp.val = 0) :
    faultExplained (raise s .stackUnderflow (encode .ret)) = true := by
  have hret : encode .ret = 0x00EE := rfl
  simp [faultExplained, fetchWord_raise, ← hop, hret, hsp]

/-! ### What a core without a fault can come to -/

variable {t : State}

theorem faultExplained_of_exec_call {nnn : Addr} (hf : s.fault = .none) (hop : encode (.call nnn) = fetchWord s)
    (h : exec (.call nnn) s = .next t) : faultExplained t = true := by
  obtain ⟨hsp, -⟩ | ⟨_, hp⟩ := push_cases (advance s) (advance s).pc
  · rw [exec_call_of_full (s := s) hsp] at h
    cases h
    exact faultExplained_raise_stackOverflow hop hsp
  · rw [exec_call_of_ok hp] at h
    cases h
    exact faultExplained_of_fault_none hf

theorem faultExplained_of_exec_ret (hf : s.fault = .none) (hop : encode .ret = fetchWord s) (h : exec .ret s = .next t) :
    faultExplained t = true := by
  obtain ⟨hsp, -⟩ | ⟨_, -, hp⟩ := pop_cases (advance s)
  · rw [exec_ret_of_empty (s := s) hsp] at h
    cases h
    exact faultExplained_raise_stackUnderflow hop hsp
  · rw [exec_ret_of_ok hp] at h
    cases h
    exact faultExplained_of_fault_none hf

/-- Only a call and a return can write the record; the other instructions leave the core without a fault. -/
theorem faultExplained_of_exec {i : Instr} (hf : s.fault = .none) (hop : encode i = fetchWord s) (h : exec i s = .next t) :
    faultExplained t = true := by
  have hkept : Claim.writesStack i = false → faultExplained t = true := fun hn => by
    obtain ⟨hfault, -, -⟩ := (effect_of_exec h).kept_faultRecord hn
    exact faultExplained_of_fault_none (hfault.trans hf)
  cases i with
  | call nnn => exact faultExplained_of_exec_call hf hop h
  | ret => exact faultExplained_of_exec_ret hf hop h
  | _ => exact hkept rfl

/-- A cycle of a core without a fault raises UnknownOpcode with the word at PC, or performs the instruction that word encodes. -/
theorem faultExplained_of_cycle (hf : frozen s = false) (h : cycle s = .next t) : faultExplained t = true := by
  obtain ⟨hfrozen, -⟩ | ⟨-, op, hd, hc⟩ | ⟨-, i, hd, hc⟩ := cycle_cases s
  · simp [hf] at hfrozen
  · obtain ⟨rfl, hwf⟩ := undefined_of_decode hd
    rw [hc] at h
    cases h
    exact faultExplained_raise_unknownOpcode hwf
  · exact faultExplained_of_exec ((frozen_eq_false_iff s).mp hf) (encode_of_decode hd) (hc ▸ h)

/-- An event on a core without a fault leaves it without one, but for a cycle. -/
theorem faultExplained_of_applyEvent {e : Event} (hf : frozen s = false) (h : applyEvent e s = .next t) :
    faultExplained t = true := by
  have hnone := (frozen_eq_false_iff s).mp hf
  cases e with
  | cycle => exact faultExplained_of_cycle hf h
  | tick =>
    cases h
    rw [tick_eq]
    exact faultExplained_of_fault_none hnone
  | keySet k b =>
    cases h
    rw [keySet_eq]
    exact faultExplained_of_fault_none hnone
  | reset =>
    cases h
    rfl
  | load start bytes =>
    obtain ⟨m, r, rfl, -⟩ := loadEvent_writes h
    exact faultExplained_of_fault_none hnone

end

/-- Settles O55: a frozen core keeps its record or is reset, and a core without a fault comes to a state that is explained. -/
theorem faultRecordStaysExplained : Obligations.FaultRecordStaysExplained := by
  intro s t hs h
  cases hf : frozen s with
  | true =>
    obtain ⟨hidle, hother, hreset⟩ := frozenCoreLeavesOnlyByReset s hf
    cases he : s.events with
    | nil =>
      cases (hidle he).symm.trans h
      exact hs
    | cons e es =>
      by_cases hr : e = .reset
      · obtain ⟨u, hu, hfu⟩ := hreset es (hr ▸ he)
        cases hu.symm.trans h
        exact faultExplained_of_fault_none ((frozen_eq_false_iff t).mp hfu)
      · cases (hother e es he hr).symm.trans h
        exact hs
  | false =>
    cases he : s.events with
    | nil => exact faultExplained_of_cycle hf (step_of_no_event he ▸ h)
    | cons e es => exact faultExplained_of_applyEvent (s := { s with events := es }) hf (step_of_event he ▸ h)

end Sys2Proof.Machine
end

section
/-! The 60 Hz tick (60_exceptions.md R210): what one tick does to a timer and to the state, and `n` of them in a row. -/

namespace Sys2Proof.Machine

open Claim

/-- The subtraction of naturals stops at 0, as the decay of a timer does. -/
theorem toNat_decay (b : Byte) : (decay b).toNat = b.toNat - 1 := by
  unfold decay
  split
  · next h => exact BitVec.toNat_sub_of_le (BitVec.le_def.mpr h)
  · next h => omega

theorem tick_of_not_frozen {s : State} (h : frozen s = false) : tick s = { s with dt := decay s.dt, st := decay s.st } := by
  simp only [tick, h, Bool.false_eq_true, if_false]

/-- Taking an event from the list is a change of the list alone. -/
theorem keptBut_events (s : State) (es : List Event) : keptBut [.events] s { s with events := es } :=
  keptBut_of_cons (keptBut_keys_events s s.key es) (kept_refl .keys s)

theorem keptBut_tick (s : State) : keptBut [.dt, .st] s (tick s) := by
  rw [tick_eq]
  exact keptBut_timers s _ _

/-- Settles O50: the step ticks after taking the event from the list, and a tick decays both timers unless the core is frozen. -/
theorem tickDecrementsBothTimers : Obligations.TickDecrementsBothTimers := by
  intro s es hs
  refine ⟨tick { s with events := es }, step_of_event hs, ?_, ?_, fun hf => ?_, fun hf => ?_⟩
  · rw [tick_eq]
  · exact keptBut_of_subset (by simp) (keptBut_trans (keptBut_events s es) (keptBut_tick _))
  · rw [tick_of_not_frozen (s := { s with events := es }) hf]
    exact ⟨toNat_decay s.dt, toNat_decay s.st⟩
  · rw [tick_of_frozen (s := { s with events := es }) hf]
    exact ⟨rfl, rfl⟩

/-! ### Ticks in a row -/

theorem run_succ_of_step {M : Host.Core} {s t : M.State} (h : M.step s = .next t) (n : Nat) :
    M.run (n + 1) s = M.run n t := by
  simp only [Host.Core.run, h]

/-- Whether a core is frozen is a matter of the fault record. -/
theorem frozen_of_kept {s t : State} (h : kept .faultRecord s t) : frozen t = frozen s := by
  obtain ⟨hfault, -, -⟩ := h
  rw [frozen, frozen, hfault]

/-- Settles O51, by induction on the number of ticks: the first is O50, and it leaves the core not frozen for the others. -/
theorem ticksRunTimersDownToZero : Obligations.TicksRunTimersDownToZero := by
  intro n
  induction n with
  | zero => exact fun s es _ hs => ⟨s, rfl, rfl, rfl, hs, fun p _ => kept_refl p s⟩
  | succ n ih =>
    intro s es hf hs
    rw [List.replicate_succ, List.cons_append] at hs
    obtain ⟨t, hstep, hevents, hframe, hdecay, -⟩ := tickDecrementsBothTimers s _ hs
    obtain ⟨hdt, hst⟩ := hdecay hf
    have hft : frozen t = false := (frozen_of_kept (hframe .faultRecord (by decide))).trans hf
    obtain ⟨u, hrun, hdtu, hstu, heventsu, hframeu⟩ := ih t es hft hevents
    refine ⟨u, (run_succ_of_step (M := Sys2Proof.core) hstep n).trans hrun, by omega, by omega, heventsu, ?_⟩
    exact keptBut_of_subset (by simp) (keptBut_trans hframe hframeu)

end Sys2Proof.Machine
end

section
/-! The idle self-jump (70_reset_and_hazards.md R233). -/

namespace Sys2Proof.Machine

theorem idle_iff (s : State) : Safety.idle s = true ↔
    frozen s = false ∧ decode (fetchWord s) = .instruction (.jp (s.pc.extractLsb' 0 12)) ∧ s.pc.toNat < 4096 := by
  simp only [Safety.idle, Safety.good, Bool.and_eq_true, Bool.not_eq_true', decide_eq_true_eq, and_assoc]

/-- A PC inside memory fits the 12 bits of a jump's target. -/
theorem toNat_extractLsb'_of_lt {a : Word} (h : a.toNat < 4096) : (a.extractLsb' 0 12).toNat = a.toNat := by
  rw [BitVec.extractLsb'_toNat, Nat.shiftRight_zero]
  exact Nat.mod_eq_of_lt h

/-- Settles O20, from O12: the step is the jump, and its target is the PC it stands at. -/
theorem idleLoopStays : Obligations.IdleLoopStays := by
  intro s hidle hs
  obtain ⟨hf, hd, hlt⟩ := (idle_iff s).mp hidle
  obtain ⟨t, hexec, -, -, hsame⟩ := jumpGoesToLiteral (s.pc.extractLsb' 0 12) s
  have hts : t = s := hsame (toNat_extractLsb'_of_lt hlt).symm
  rw [step_of_no_event hs, cycle_of_instruction hf hd, hexec, hts]

end Sys2Proof.Machine
end
